-- ==== Sys2Proof/Word.lean ====
section
/-! DEFINITION. The words of the machine and their plainest arithmetic (00_scope.md R6, R12). All quantities are unsigned. -/

namespace Sys2Proof

/-- A byte: a memory location, a V register, a timer, an immediate NN (R6: VBITS = 8). -/
abbrev Byte := BitVec 8

/-- A 16-bit word: an instruction word, I, PC, an entry of the call stack (R6: IBITS, PCBITS = 16). -/
abbrev Word := BitVec 16

/-- The number of a V register, 0 to 15 (10_state.md R21: every value of the 4-bit field names a register). -/
abbrev Reg := Fin 16

/-- The number of a key, 0x0 to 0xF (10_state.md R31). -/
abbrev Key := Fin 16

end Sys2Proof
end

