-- ==== Sys2Proof/Config.lean ====
section
/-! DEFINITION. The configuration of a core and the free values (00_scope.md R8 to R11). -/

namespace Sys2Proof

/-- SHIFT_SRC: the register that SHR and SHL shift (R9). -/
inductive ShiftSrc where
  | vx
  | vy
  deriving DecidableEq, Repr

/-- JUMP_BASE: the register added to the address in BNNN (R9). -/
inductive JumpBase where
  | v0
  | vx
  deriving DecidableEq, Repr

/-- DRAW_EDGE: what DRW does with a pixel beyond the grid (R9). -/
inductive DrawEdge where
  | wrap
  | clip
  deriving DecidableEq, Repr

/-- DRAW_Y_MOD: the modulus that reduces Vy to the first sprite row, 32, or the source's literal 64 (R10, C1). -/
inductive DrawYMod where
  | rows32
  | rows64
  deriving DecidableEq, Repr

/-- The modulus as a number. -/
def DrawYMod.value : DrawYMod → Nat
  | .rows32 => 32
  | .rows64 => 64

/-- FONT: a table of 16 glyphs of 5 bytes each, the top row first (R8, 10_state.md R41). -/
abbrev Font := Vector (Vector Byte 5) 16

/-- The configuration of a core, fixed at construction: the five quirks (R9), the parameter DRAW_Y_MOD (R10) and the parameter
FONT (R8), which reset copies into memory.
DESIGN CHOICE (log 1): the record stands in `State`, where no operation but reset changes it. -/
structure Configuration where
  shiftSrc : ShiftSrc
  loadStoreIncI : Bool
  jumpBase : JumpBase
  drawEdge : DrawEdge
  logicResetsVf : Bool
  drawYMod : DrawYMod
  font : Font
  deriving DecidableEq, Repr

/-- The source's own toggle names (R9). `wrap_quirk` is the negation of `clip_quirk` (D4). -/
structure Toggles where
  shiftQuirk : Bool
  loadStoreQuirk : Bool
  jumpQuirk : Bool
  clipQuirk : Bool
  vfResetQuirk : Bool
  deriving DecidableEq, Repr

/-- FREE VALUE (log 9): the byte that the random source gives at the `k`-th draw when nothing was supplied for it. It is
under no law (R11, R123): nothing constrains it. -/
opaque Config.randomByte : Nat → Byte

end Sys2Proof
end

