-- ==== Sys2Proof/Syntax.lean ====
section
/-! DEFINITION. The instructions, one constructor per row of the opcode map (30_encoding.md R90), in its order. -/

namespace Sys2Proof

/-- The 34 instructions. Operands have the types of their fields (R81, R83): a register number, an 8-bit or a 12-bit
immediate; the sprite height is a count, whose bound 15 is the one check of `Instr.wellFormed`. -/
inductive Instr where
  /-- `00E0` CLS (R190) -/
  | cls
  /-- `00EE` RET (R142) -/
  | ret
  /-- `1NNN` JP NNN (R140) -/
  | jpNnn (nnn : BitVec 12)
  /-- `2NNN` CALL NNN (R141) -/
  | callNnn (nnn : BitVec 12)
  /-- `3XNN` SE Vx, NN (R150) -/
  | seVxNn (x : Reg) (nn : Byte)
  /-- `4XNN` SNE Vx, NN (R151) -/
  | sneVxNn (x : Reg) (nn : Byte)
  /-- `5XY0` SE Vx, Vy (R152) -/
  | seVxVy (x y : Reg)
  /-- `6XNN` LD Vx, NN (R160) -/
  | ldVxNn (x : Reg) (nn : Byte)
  /-- `7XNN` ADD Vx, NN (R161) -/
  | addVxNn (x : Reg) (nn : Byte)
  /-- `8XY0` LD Vx, Vy (R162) -/
  | ldVxVy (x y : Reg)
  /-- `8XY1` OR Vx, Vy (R163) -/
  | orVxVy (x y : Reg)
  /-- `8XY2` AND Vx, Vy (R164) -/
  | andVxVy (x y : Reg)
  /-- `8XY3` XOR Vx, Vy (R165) -/
  | xorVxVy (x y : Reg)
  /-- `8XY4` ADD Vx, Vy (R166) -/
  | addVxVy (x y : Reg)
  /-- `8XY5` SUB Vx, Vy (R167) -/
  | subVxVy (x y : Reg)
  /-- `8XY6` SHR Vx, Vy (R168) -/
  | shrVxVy (x y : Reg)
  /-- `8XY7` SUBN Vx, Vy (R169) -/
  | subnVxVy (x y : Reg)
  /-- `8XYE` SHL Vx, Vy (R170) -/
  | shlVxVy (x y : Reg)
  /-- `9XY0` SNE Vx, Vy (R153) -/
  | sneVxVy (x y : Reg)
  /-- `ANNN` LD I, NNN (R180) -/
  | ldINnn (nnn : BitVec 12)
  /-- `BNNN` JP V0, NNN (R143) -/
  | jpV0Nnn (nnn : BitVec 12)
  /-- `CXNN` RND Vx, NN (R200) -/
  | rndVxNn (x : Reg) (nn : Byte)
  /-- `DXYN` DRW Vx, Vy, N (R191) -/
  | drwVxVyN (x y : Reg) (n : Nat)
  /-- `EX9E` SKP Vx (R154) -/
  | skpVx (x : Reg)
  /-- `EXA1` SKNP Vx (R155) -/
  | sknpVx (x : Reg)
  /-- `FX07` LD Vx, DT (R201) -/
  | ldVxDt (x : Reg)
  /-- `FX0A` LD Vx, K (R204) -/
  | ldVxK (x : Reg)
  /-- `FX15` LD DT, Vx (R202) -/
  | ldDtVx (x : Reg)
  /-- `FX18` LD ST, Vx (R203) -/
  | ldStVx (x : Reg)
  /-- `FX1E` ADD I, Vx (R181) -/
  | addIVx (x : Reg)
  /-- `FX29` LD F, Vx (R182) -/
  | ldFVx (x : Reg)
  /-- `FX33` LD B, Vx (R183) -/
  | ldBVx (x : Reg)
  /-- `FX55` LD [I], Vx (R184) -/
  | ldMemVx (x : Reg)
  /-- `FX65` LD Vx, [I] (R185) -/
  | ldVxMem (x : Reg)
  deriving DecidableEq, Repr

end Sys2Proof
end

