-- ==== Sys2Proof/Decode.lean ====
section
/-! DEFINITION. The decoder (30_encoding.md R80 to R93), total on any bytes, and after it the encoder. PRESUMED (log 17): the
22 patterns the source does not print are the standard ones. -/

namespace Sys2Proof

/-! ### The fields of a word (R81) -/

/-- op = w[15:12] -/
def opField (w : Word) : BitVec 4 := w.extractLsb' 12 4

/-- x = w[11:8] -/
def xField (w : Word) : Reg := (w.extractLsb' 8 4).toFin

/-- y = w[7:4] -/
def yField (w : Word) : Reg := (w.extractLsb' 4 4).toFin

/-- n = w[3:0], as the bits that select a sub-opcode -/
def nField (w : Word) : BitVec 4 := w.extractLsb' 0 4

/-- nn = w[7:0] -/
def nnField (w : Word) : Byte := w.extractLsb' 0 8

/-- nnn = w[11:0] -/
def nnnField (w : Word) : BitVec 12 := w.extractLsb' 0 12

/-! ### Dispatch (R84, R85) -/

/-- Group 0: the whole word is matched (R86). DESIGN CHOICE of the spec, D10 (log 17). -/
def decodeGroup0 (w : Word) : Option Instr :=
  if w = 0x00E0#16 then some .cls
  else if w = 0x00EE#16 then some .ret
  else none

/-- Group 8: nine variants selected by n (R88). -/
def decodeGroup8 (w : Word) : Option Instr :=
  match nField w with
  | 0x0#4 => some (.ldVxVy (xField w) (yField w))
  | 0x1#4 => some (.orVxVy (xField w) (yField w))
  | 0x2#4 => some (.andVxVy (xField w) (yField w))
  | 0x3#4 => some (.xorVxVy (xField w) (yField w))
  | 0x4#4 => some (.addVxVy (xField w) (yField w))
  | 0x5#4 => some (.subVxVy (xField w) (yField w))
  | 0x6#4 => some (.shrVxVy (xField w) (yField w))
  | 0x7#4 => some (.subnVxVy (xField w) (yField w))
  | 0xE#4 => some (.shlVxVy (xField w) (yField w))
  | _ => none

/-- Group E: two instructions selected by nn (R89). -/
def decodeGroupE (w : Word) : Option Instr :=
  match nnField w with
  | 0x9E#8 => some (.skpVx (xField w))
  | 0xA1#8 => some (.sknpVx (xField w))
  | _ => none

/-- Group F: nine instructions selected by nn (R89). -/
def decodeGroupF (w : Word) : Option Instr :=
  match nnField w with
  | 0x07#8 => some (.ldVxDt (xField w))
  | 0x0A#8 => some (.ldVxK (xField w))
  | 0x15#8 => some (.ldDtVx (xField w))
  | 0x18#8 => some (.ldStVx (xField w))
  | 0x1E#8 => some (.addIVx (xField w))
  | 0x29#8 => some (.ldFVx (xField w))
  | 0x33#8 => some (.ldBVx (xField w))
  | 0x55#8 => some (.ldMemVx (xField w))
  | 0x65#8 => some (.ldVxMem (xField w))
  | _ => none

/-- The decoder on a word: one of the 34 instructions, or none for an invalid word (R90, R91, R93). Groups 5 and 9 ask
n = 0 (R87; D10, log 17). All 16 groups are populated (R84): the last arm is group F. -/
def decodeWord (w : Word) : Option Instr :=
  match opField w with
  | 0x0#4 => decodeGroup0 w
  | 0x1#4 => some (.jpNnn (nnnField w))
  | 0x2#4 => some (.callNnn (nnnField w))
  | 0x3#4 => some (.seVxNn (xField w) (nnField w))
  | 0x4#4 => some (.sneVxNn (xField w) (nnField w))
  | 0x5#4 => if nField w = 0x0#4 then some (.seVxVy (xField w) (yField w)) else none
  | 0x6#4 => some (.ldVxNn (xField w) (nnField w))
  | 0x7#4 => some (.addVxNn (xField w) (nnField w))
  | 0x8#4 => decodeGroup8 w
  | 0x9#4 => if nField w = 0x0#4 then some (.sneVxVy (xField w) (yField w)) else none
  | 0xA#4 => some (.ldINnn (nnnField w))
  | 0xB#4 => some (.jpV0Nnn (nnnField w))
  | 0xC#4 => some (.rndVxNn (xField w) (nnField w))
  | 0xD#4 => some (.drwVxVyN (xField w) (yField w) (nField w).toNat)
  | 0xE#4 => decodeGroupE w
  | _ => decodeGroupF w

/-! ### Bytes -/

/-- Why bytes are no instruction. -/
inductive DecodeError where
  /-- fewer than the two bytes of an instruction (R80) -/
  | truncated
  /-- no row of R90 matches the word (R91) -/
  | invalidWord (w : Word)
  deriving DecidableEq, Repr

/-- The word of two bytes, the byte at the lower address first: big-endian (20_memory.md R54, R56). -/
def wordOfBytes (hi lo : Byte) : Word := hi ++ lo

/-- The two bytes of a word as they lie in memory, the lower address first. -/
def bytesOfWord (w : Word) : Byte × Byte := (w.extractLsb' 8 8, w.extractLsb' 0 8)

/-- The decoder on bytes: an instruction and the bytes after it, or the name of what is wrong. -/
def decode : List Byte → Except DecodeError (Instr × List Byte)
  | hi :: lo :: rest =>
    match decodeWord (wordOfBytes hi lo) with
    | some i => .ok (i, rest)
    | none => .error (.invalidWord (wordOfBytes hi lo))
  | _ => .error .truncated

/-- The instruction of a table word: bit 0 of `w` is the least significant bit of the one word an instruction has (R80), laid
out big-endian and read by `decode`. -/
def decodeTableWord (_nbits w : Nat) : Option Instr :=
  match decode [(bytesOfWord (BitVec.ofNat 16 w)).1, (bytesOfWord (BitVec.ofNat 16 w)).2] with
  | .ok (i, _) => some i
  | .error _ => none

/-! ### The encoder, from the formats of R82 and the patterns of R90 -/

/-- The 4-bit field of a register number. -/
def regBits (x : Reg) : BitVec 4 := BitVec.ofFin x

/-- Format XNN: op x nn. -/
def formatXNN (op : BitVec 4) (x : Reg) (nn : Byte) : Word := op ++ regBits x ++ nn

/-- Format XYN, and XY with n the fixed sub-opcode: op x y n. -/
def formatXYN (op : BitVec 4) (x y : Reg) (n : BitVec 4) : Word := op ++ regBits x ++ regBits y ++ n

/-- Format NNN: op nnn. -/
def formatNNN (op : BitVec 4) (nnn : BitVec 12) : Word := op ++ nnn

/-- The word of an instruction. -/
def encodeWord : Instr → Word
  | .cls => 0x00E0#16
  | .ret => 0x00EE#16
  | .jpNnn nnn => formatNNN 0x1#4 nnn
  | .callNnn nnn => formatNNN 0x2#4 nnn
  | .seVxNn x nn => formatXNN 0x3#4 x nn
  | .sneVxNn x nn => formatXNN 0x4#4 x nn
  | .seVxVy x y => formatXYN 0x5#4 x y 0x0#4
  | .ldVxNn x nn => formatXNN 0x6#4 x nn
  | .addVxNn x nn => formatXNN 0x7#4 x nn
  | .ldVxVy x y => formatXYN 0x8#4 x y 0x0#4
  | .orVxVy x y => formatXYN 0x8#4 x y 0x1#4
  | .andVxVy x y => formatXYN 0x8#4 x y 0x2#4
  | .xorVxVy x y => formatXYN 0x8#4 x y 0x3#4
  | .addVxVy x y => formatXYN 0x8#4 x y 0x4#4
  | .subVxVy x y => formatXYN 0x8#4 x y 0x5#4
  | .shrVxVy x y => formatXYN 0x8#4 x y 0x6#4
  | .subnVxVy x y => formatXYN 0x8#4 x y 0x7#4
  | .shlVxVy x y => formatXYN 0x8#4 x y 0xE#4
  | .sneVxVy x y => formatXYN 0x9#4 x y 0x0#4
  | .ldINnn nnn => formatNNN 0xA#4 nnn
  | .jpV0Nnn nnn => formatNNN 0xB#4 nnn
  | .rndVxNn x nn => formatXNN 0xC#4 x nn
  | .drwVxVyN x y n => formatXYN 0xD#4 x y (BitVec.ofNat 4 n)
  | .skpVx x => formatXNN 0xE#4 x 0x9E#8
  | .sknpVx x => formatXNN 0xE#4 x 0xA1#8
  | .ldVxDt x => formatXNN 0xF#4 x 0x07#8
  | .ldVxK x => formatXNN 0xF#4 x 0x0A#8
  | .ldDtVx x => formatXNN 0xF#4 x 0x15#8
  | .ldStVx x => formatXNN 0xF#4 x 0x18#8
  | .addIVx x => formatXNN 0xF#4 x 0x1E#8
  | .ldFVx x => formatXNN 0xF#4 x 0x29#8
  | .ldBVx x => formatXNN 0xF#4 x 0x33#8
  | .ldMemVx x => formatXNN 0xF#4 x 0x55#8
  | .ldVxMem x => formatXNN 0xF#4 x 0x65#8

/-- The words of an instruction: one (R80). -/
def encode (i : Instr) : List Word := [encodeWord i]

/-- The bytes of an instruction as they lie in memory. -/
def encodeBytes (i : Instr) : List Byte :=
  (encode i).flatMap fun w => [(bytesOfWord w).1, (bytesOfWord w).2]

end Sys2Proof
end

