-- ==== Sys2Proof/Machine/Params.lean ====
section
/-! DEFINITION. The fixed parameters of the core (00_scope.md R6, R7), the default font (R8) and configuration (R9, R10),
and the cells of memory that reset lists (10_state.md R40). -/

namespace Sys2Proof.Machine

/-- MEM_SIZE: addresses 0x000 to 0xFFF (R6, 20_memory.md R50). -/
def memSize : Nat := 4096

/-- PROG_BASE: where `load` puts the program, and the reset value of PC (R6). -/
def progBase : Nat := 0x200

/-- MAX_ROM = MEM_SIZE − PROG_BASE: the longest program `load` accepts (R6). -/
def maxRom : Nat := 3584

/-- STACK_DEPTH: entries of the call stack (R6). -/
def stackDepth : Nat := 16

/-- GLYPH_BYTES: bytes of a font glyph (R6). -/
def glyphBytes : Nat := 5

/-- FONT_BASE: the address of the first font byte (R7). DESIGN CHOICE of the spec, D6 (log 5). -/
def fontBase : Nat := 0x050

/-- The FONT table of 10_state.md R41, the default value of the parameter. PRESUMED (log 6): the source gives no byte of it. -/
def fontTable : Font :=
  #v[#v[0xF0, 0x90, 0x90, 0x90, 0xF0], #v[0x20, 0x60, 0x20, 0x20, 0x70],
    #v[0xF0, 0x10, 0xF0, 0x80, 0xF0], #v[0xF0, 0x10, 0xF0, 0x10, 0xF0],
    #v[0x90, 0x90, 0xF0, 0x10, 0x10], #v[0xF0, 0x80, 0xF0, 0x10, 0xF0],
    #v[0xF0, 0x80, 0xF0, 0x90, 0xF0], #v[0xF0, 0x10, 0x20, 0x40, 0x40],
    #v[0xF0, 0x90, 0xF0, 0x90, 0xF0], #v[0xF0, 0x90, 0xF0, 0x10, 0xF0],
    #v[0xF0, 0x90, 0xF0, 0x90, 0x90], #v[0xE0, 0x90, 0xE0, 0x90, 0xE0],
    #v[0xF0, 0x80, 0x80, 0x80, 0xF0], #v[0xE0, 0x90, 0x90, 0x90, 0xE0],
    #v[0xF0, 0x80, 0xF0, 0x80, 0xF0], #v[0xF0, 0x80, 0xF0, 0x80, 0x80]]

/-- The 80 bytes of a font in the order of their addresses (R41). -/
def fontBytes (font : Font) : List Byte := List.ofFn fun k : Fin 80 => (font[k.val / 5])[k.val % 5]

/-- What an unlisted address reads as: 0x00, the reset content of memory outside the font (10_state.md R40; D8, log 8). -/
def unlistedByte : Byte := 0#8

/-- Bytes laid down from an address up, as cells in canonical form: a byte that its address reads as anyway is not listed. -/
def cellsFrom (a : Nat) (bytes : List Byte) : List Host.Cell :=
  match bytes with
  | [] => []
  | b :: rest => if b = unlistedByte then cellsFrom (a + 1) rest else (a, b) :: cellsFrom (a + 1) rest

/-- The default configuration (R9's last column; DRAW_Y_MOD = 32 by R10; FONT = R41's table). DESIGN CHOICE (log 2) for the
three fields whose default is D5. -/
def defaultConfig : Configuration where
  shiftSrc := .vx
  loadStoreIncI := false
  jumpBase := .v0
  drawEdge := .wrap
  logicResetsVf := false
  drawYMod := .rows32
  font := fontTable

/-- The configuration that the source's toggles select (R9's column "source toggle"), with a font. DESIGN CHOICE of the spec, D3
and D4 (log 3): the polarities. -/
def configOfToggles (t : Toggles) (font : Font) : Configuration where
  shiftSrc := if t.shiftQuirk then .vy else .vx
  loadStoreIncI := t.loadStoreQuirk
  jumpBase := if t.jumpQuirk then .vx else .v0
  drawEdge := if t.clipQuirk then .clip else .wrap
  logicResetsVf := t.vfResetQuirk
  drawYMod := .rows32
  font := font

end Sys2Proof.Machine
end

