-- ==== Sys2Proof/Machine/State.lean ====
section
/-! DEFINITION. The state of one core (10_state.md R20), the error kinds (60_exceptions.md R210) and reset (R40). -/

namespace Sys2Proof.Machine

/-- MEM (20_memory.md R50): the addresses that do not hold `unlistedByte`, with what they hold, addresses strictly rising
(log 30). `Memory.wf` states the form, `Memory.read` what an unlisted address reads as. -/
abbrev Memory := List Host.Cell

/-- FB: `FB[y][x]`, 32 rows of 64 columns, origin top left (R30). -/
abbrev Frame := Vector (Vector Bool 64) 32

/-- The six error kinds, one closed type (60_exceptions.md R210). The first four are raised by `step()` and are then the `e`
of `Halted(e)`: the step answers a NEXT state. As `Outcome.fault` a kind is only ever the answer of `load` or `set_key`, to
their caller, with the state left as it was (R215); `step` never answers a fault (R124; log 24). -/
inductive Fault where
  /-- Raised by a step in Running whose fetched word matches no row of the opcode map (R211). Safe: the spec's own error. -/
  | invalidOpcode (address word : Word)
  /-- Raised by CALL when the stack holds 16 entries (R212). Safe: the spec's own error. -/
  | stackOverflow
  /-- Raised by RET when the stack is empty (R213). Safe: the spec's own error. -/
  | stackUnderflow
  /-- Raised by a fetch above 0xFFE, and by LD B, LD [I], LD Vx,[I] and DRW on a range that passes 0xFFF (R214). Safe as an
  error; the address recorded is D12 (log 16). -/
  | outOfBoundsMemoryAccess (address : Nat)
  /-- Answered by `load` to a sequence longer than 3584 bytes (R121, R215). Safe: the spec's own error. -/
  | romTooLarge
  /-- Answered by `set_key` to an index above 15 (R120, R215). Safe: the spec's own error. -/
  | invalidKeyIndex (index : Nat)
  deriving DecidableEq, Repr

/-- Reasons to give an instruction no meaning. Every instruction has one, so nothing answers this. -/
inductive Refusal where
  /-- Raised by an arm of `exec` whose instruction has no meaning yet. Safe: the machine stops. -/
  | notModelled (mnemonic : String)
  deriving DecidableEq, Repr

/-- EXEC, the executor's state (R32). -/
inductive Exec where
  | running
  /-- waiting for a key press that goes into Vx -/
  | waitingForKey (x : Reg)
  /-- halted for good by the error `e` -/
  | halted (e : Fault)
  deriving DecidableEq, Repr

/-- The complete state of a core (R20), with its configuration and its random input, which the spec counts as parameters of
the step (R34) and which stand here because a step has this one argument (log 1, 9). -/
structure State where
  /-- the configuration: quirks, DRAW_Y_MOD and FONT; no operation but reset changes it (00_scope.md R8, R9, R10) -/
  cfg : Configuration
  /-- V0 to VF (R21) -/
  v : Vector Byte 16
  /-- I (R24) -/
  i : Word
  /-- PC (R25) -/
  pc : Word
  /-- STACK, newest entry first, at most 16 (R27) -/
  stack : List Word
  /-- DT (R28) -/
  dt : Byte
  /-- ST (R28) -/
  st : Byte
  /-- FB (R30) -/
  fb : Frame
  /-- KEY (R31) -/
  key : Vector Bool 16
  /-- EXEC (R32) -/
  exec : Exec
  /-- KPREV, the hidden snapshot of KEY (R33) -/
  kprev : Vector Bool 16
  /-- MEM (20_memory.md) -/
  mem : Memory
  /-- the random bytes supplied and not yet drawn, the next first (40_step_cycle.md R123); the model's own field -/
  randomIn : List Byte
  /-- how many random bytes were drawn; the model's own field, which makes each free value a fresh one -/
  draws : Nat
  deriving DecidableEq, Repr

/-- `reset(cfg)`: a fresh core with a configuration (70_reset_and_hazards.md R230), every piece of state at the value of R40:
memory lists the bytes of the configured font and reads as zero elsewhere.
The zeros of V, I, STACK, DT, ST, FB, KEY and KPREV are D7 (log 7); `randomIn` and `draws` are DESIGN CHOICE (log 10). -/
def State.resetWith (cfg : Configuration) : State where
  cfg := cfg
  v := Vector.replicate 16 0#8
  i := 0x0000#16
  pc := BitVec.ofNat 16 progBase
  stack := []
  dt := 0#8
  st := 0#8
  fb := Vector.replicate 32 (Vector.replicate 64 false)
  key := Vector.replicate 16 false
  exec := .running
  kprev := Vector.replicate 16 false
  mem := cellsFrom fontBase (fontBytes cfg.font)
  randomIn := []
  draws := 0

/-- The machine right after reset, under the default configuration (log 2). No program is loaded (log 28). -/
def State.reset : State := State.resetWith defaultConfig

end Sys2Proof.Machine
end

