-- ==== Sys2Proof/Machine/Ops.lean ====
section
/-! DEFINITION. The named operations over registers, memory, stack, keys, random input and display that the meanings are
written with (00_scope.md R13), and the one way to raise an error (60_exceptions.md R217). -/

namespace Sys2Proof.Machine

/-! ### V registers (10_state.md R21) -/

/-- `V[x]` -/
def State.getV (s : State) (x : Reg) : Byte := s.v[x]

/-- `V[x] <- b` -/
def State.setV (s : State) (x : Reg) (b : Byte) : State := { s with v := s.v.set x.val b x.isLt }

/-- V0 up to the last given byte become the bytes, in order; the other registers stay (44_memory_index.md R185). -/
def State.setVRange (s : State) (bytes : List Byte) : State :=
  { s with v := Vector.ofFn fun k : Reg => bytes.getD k.val (s.getV k) }

/-- `V[0] .. V[x]`, in order (44_memory_index.md R184). -/
def State.getVRange (s : State) (x : Reg) : List Byte := (s.v.toList).take (x.val + 1)

/-! ### I, PC, timers, display, executor -/

/-- `I <- a` -/
def State.setI (s : State) (a : Word) : State := { s with i := a }

/-- `PC <- a` -/
def State.setPc (s : State) (a : Word) : State := { s with pc := a }

/-- `PC <- PC + 2`, the end of every instruction that is not a transfer (10_state.md R26). -/
def State.advance (s : State) : State := s.setPc (s.pc + 2#16)

/-- `if cond then PC <- PC + 4 else PC <- PC + 2`, the end of every skip (42_skip.md R156). -/
def State.skipIf (s : State) (cond : Bool) : State := if cond then s.setPc (s.pc + 4#16) else s.advance

/-- `DT <- b` -/
def State.setDt (s : State) (b : Byte) : State := { s with dt := b }

/-- `ST <- b` -/
def State.setSt (s : State) (b : Byte) : State := { s with st := b }

/-- The display buffer becomes `f`. -/
def State.setFb (s : State) (f : Frame) : State := { s with fb := f }

/-- The memory becomes `m`. -/
def State.setMem (s : State) (m : Memory) : State := { s with mem := m }

/-- The call stack becomes `l`, newest entry first. -/
def State.setStack (s : State) (l : List Word) : State := { s with stack := l }

/-- `EXEC <- e` -/
def State.setExec (s : State) (e : Exec) : State := { s with exec := e }

/-- `KPREV <- KEY` (46_random_timers_keywait.md R204) -/
def State.snapshotKeys (s : State) : State := { s with kprev := s.key }

/-! ### Raising an error -/

/-- `raise e`, trap entry: EXEC becomes `Halted(e)`, "and that is the whole effect": PC stays on the faulting instruction and
nothing is saved anywhere (R217). There is no return: Halted is terminal, and only `reset` (`State.resetWith`) leaves it
(R218). That nothing else changes is D11 (log 15). -/
def State.raise (s : State) (e : Fault) : State := s.setExec (.halted e)

/-- The end of a step that may raise: the state reached, or trap entry in the state the step began in (40_step_cycle.md R114). -/
def State.complete (s : State) (r : Except Fault State) : Host.Outcome State Fault Refusal :=
  match r with
  | .ok t => .next t
  | .error e => .next (s.raise e)

/-! ### Memory (20_memory.md) -/

/-- MEM[a], without the bounds check. -/
def Memory.read (m : Memory) (a : Nat) : Byte :=
  match m with
  | [] => unlistedByte
  | c :: m => if c.1 = a then c.2 else Memory.read m a

/-- The cells of the other addresses. -/
def Memory.erase (m : Memory) (a : Nat) : Memory := m.filter fun c => decide (c.1 ≠ a)

/-- A cell put in its place among rising addresses. -/
def Memory.insert (m : Memory) (c : Host.Cell) : Memory :=
  match m with
  | [] => [c]
  | d :: m => if c.1 < d.1 then c :: d :: m else d :: Memory.insert m c

/-- MEM[a] <- b, without the bounds check. Writing what an unlisted address reads as removes the
cell, so that equal memories are equal lists. -/
def Memory.write (m : Memory) (a : Nat) (b : Byte) : Memory :=
  if b = unlistedByte then Memory.erase m a else Memory.insert (Memory.erase m a) (a, b)

/-- MEM[a], MEM[a+1], ... <- the bytes, in ascending order. -/
def Memory.writeList (m : Memory) (a : Nat) (bytes : List Byte) : Memory :=
  match bytes with
  | [] => m
  | b :: rest => Memory.writeList (Memory.write m a b) (a + 1) rest

/-- MEM[a .. a+count-1]. -/
def Memory.readList (m : Memory) (a count : Nat) : List Byte :=
  (List.range count).map fun k => Memory.read m (a + k)

/-- The canonical form: addresses strictly rising and inside the address space, no cell that holds what an unlisted
address reads as. -/
def Memory.wf (m : Memory) : Bool :=
  match m with
  | [] => true
  | c :: rest =>
    decide (c.1 < memSize) && decide (c.2 ≠ unlistedByte) && rest.all (fun d => decide (c.1 < d.1)) && Memory.wf rest

/-- `MemRead(a, 1)` (R52). -/
def State.memRead (s : State) (a : Nat) : Except Fault Byte :=
  if a > 0xFFF then .error (.outOfBoundsMemoryAccess a) else .ok (Memory.read s.mem a)

/-- `MemWrite(a, 1, b)` (R53). -/
def State.memWrite (s : State) (a : Nat) (b : Byte) : Except Fault State :=
  if a > 0xFFF then .error (.outOfBoundsMemoryAccess a) else .ok (s.setMem (Memory.write s.mem a b))

/-- `MemRead(a, 2)`, big-endian, used by the fetch alone (R54). -/
def State.memReadWord (s : State) (a : Nat) : Except Fault Word :=
  if a > 0xFFE then .error (.outOfBoundsMemoryAccess a)
  else .ok (wordOfBytes (Memory.read s.mem a) (Memory.read s.mem (a + 1)))

/-- The check of a data range of `count` bytes from `base`, before the first byte is moved: the error an access to it raises, at
the lowest address above 0xFFF, or none (44_memory_index.md R186; D11 and D12, log 15 and 16). -/
def rangeFault (base count : Nat) : Option Fault :=
  if count > 0 ∧ base + count - 1 > 0xFFF then some (.outOfBoundsMemoryAccess (max base 0x1000)) else none

/-- Stores bytes at ascending addresses from `base`, all or none (20_memory.md R56, R61). -/
def State.storeBytes (s : State) (base : Nat) (bytes : List Byte) : Except Fault State :=
  match rangeFault base bytes.length with
  | some e => .error e
  | none => .ok (s.setMem (Memory.writeList s.mem base bytes))

/-- Loads `count` bytes from ascending addresses from `base`, all or none (R56, R61). -/
def State.loadBytes (s : State) (base count : Nat) : Except Fault (List Byte) :=
  match rangeFault base count with
  | some e => .error e
  | none => .ok (Memory.readList s.mem base count)

/-! ### Call stack (10_state.md R27) -/

/-- `Push(a)` -/
def State.push (s : State) (a : Word) : Except Fault State :=
  if s.stack.length < stackDepth then .ok (s.setStack (a :: s.stack)) else .error .stackOverflow

/-- `Pop()`: the newest entry and the state without it -/
def State.pop (s : State) : Except Fault (Word × State) :=
  match s.stack with
  | [] => .error .stackUnderflow
  | a :: rest => .ok (a, s.setStack rest)

/-! ### Keys (10_state.md R31, R33) -/

/-- `KEY[k]` -/
def State.keyDown (s : State) (k : Key) : Bool := s.key[k]

/-- `KPREV[k]` -/
def State.keyWasDown (s : State) (k : Key) : Bool := s.kprev[k]

/-- The least newly pressed key: KEY[k] and not KPREV[k] (46_random_timers_keywait.md R204; D13, log 11). -/
def State.newKey (s : State) : Option Key := (List.finRange 16).find? fun k => s.keyDown k && !s.keyWasDown k

/-! ### Random input (40_step_cycle.md R123) -/

/-- `RandomByte()`: the byte of the next draw, the next one supplied, else the free value of this draw (log 9). -/
def State.nextRandom (s : State) : Byte := s.randomIn.headD (Config.randomByte s.draws)

/-- The state after a draw: one byte is consumed. -/
def State.afterDraw (s : State) : State := { s with randomIn := s.randomIn.tail, draws := s.draws + 1 }

/-! ### Display buffer (10_state.md R30) -/

/-- `FB[y][x]` -/
def Frame.get (f : Frame) (x : Fin 64) (y : Fin 32) : Bool := f[y][x]

/-- `FB[y][x] <- p` -/
def Frame.set (f : Frame) (x : Fin 64) (y : Fin 32) (p : Bool) : Frame :=
  Vector.set f y.val ((f[y]).set x.val p x.isLt) y.isLt

/-- Every pixel false. -/
def Frame.blank : Frame := Vector.replicate 32 (Vector.replicate 64 false)

/-! ### Fetch and decode (40_step_cycle.md R112, R113) -/

/-- The instruction a step in Running executes, or the error it raises before executing one: first the fetch's, then the
decoder's (60_exceptions.md R216). -/
def State.fetchDecode (s : State) : Except Fault Instr :=
  match s.memReadWord s.pc.toNat with
  | .error e => .error e
  | .ok w =>
    match decodeWord w with
    | some i => .ok i
    | none => .error (.invalidOpcode s.pc w)

end Sys2Proof.Machine
end

