-- ==== Sys2Proof/Machine/Operands.lean ====
section
/-! DEFINITION. Operand forms: how a meaning gets a value out of its fields and the state (30_encoding.md R83). -/

namespace Sys2Proof.Machine

/-- `zext_16(v)` of a byte (00_scope.md R12). -/
def zext16 (b : Byte) : Word := b.setWidth 16

/-- An address field zero-extended to the 16 bits of PC and I (R83). -/
def addrOperand (nnn : BitVec 12) : Word := nnn.setWidth 16

/-- The base of a data access: I as an integer, never reduced (44_memory_index.md R186, 20_memory.md R55). -/
def State.dataBase (s : State) : Nat := s.i.toNat

/-- The low nibble of a register: the key number of SKP and SKNP and the digit of LD F. DESIGN CHOICE of the spec, D14 and
D15 (log 14): the high nibble is ignored. -/
def State.lowNibble (s : State) (x : Reg) : Fin 16 := ((s.getV x).extractLsb' 0 4).toFin

/-- The register that SHR and SHL shift, by SHIFT_SRC (43_alu.md R168). -/
def State.shiftSource (s : State) (x y : Reg) : Byte :=
  match s.cfg.shiftSrc with
  | .vx => s.getV x
  | .vy => s.getV y

/-- The register number that is the top digit of an address: x = nnn[11:8] (41_flow.md R143). -/
def topDigit (nnn : BitVec 12) : Reg := (nnn.extractLsb' 8 4).toFin

/-- The offset of JP V0, NNN, by JUMP_BASE (R143). -/
def State.jumpOffset (s : State) (nnn : BitVec 12) : Byte :=
  match s.cfg.jumpBase with
  | .v0 => s.getV 0
  | .vx => s.getV (topDigit nnn)

/-- The address of a glyph: FONT_BASE + 5·d (44_memory_index.md R182). -/
def glyphAddress (d : Fin 16) : Word := BitVec.ofNat 16 (fontBase + glyphBytes * d.val)

/-- The decimal digits of a byte: hundreds, tens, ones (R183). -/
def bcdDigits (b : Byte) : List Byte :=
  [BitVec.ofNat 8 (b.toNat / 100), BitVec.ofNat 8 (b.toNat / 10 % 10), BitVec.ofNat 8 (b.toNat % 10)]

/-- I after LD [I], Vx and LD Vx, [I]: x + 1 more under LOADSTORE_INC_I, modulo 65536 (R184; D17, log 13). -/
def State.indexAfterBlock (s : State) (x : Reg) : Word :=
  if s.cfg.loadStoreIncI then s.i + BitVec.ofNat 16 (x.val + 1) else s.i

/-- x0, the first column of a sprite: Vx mod 64 (45_display.md R191). -/
def State.spriteColumn (s : State) (x : Reg) : Nat := (s.getV x).toNat % 64

/-- y0, the first row of a sprite: Vy mod DRAW_Y_MOD (R191; 00_scope.md R10, log 4). -/
def State.spriteRow (s : State) (y : Reg) : Nat := (s.getV y).toNat % s.cfg.drawYMod.value

end Sys2Proof.Machine
end

