-- ==== Sys2Proof/Machine/Flags.lean ====
section
/-! DEFINITION. Every value that VF receives as a flag (10_state.md R22), and the order of the two writes (43_alu.md R171). -/

namespace Sys2Proof.Machine

/-- VF = V[15], the only flag (10_state.md R22). -/
def flagReg : Reg := 15

/-- The byte that spells a boolean flag: always 0x00 or 0x01 (43_alu.md R172). -/
def flagByte (c : Bool) : Byte := if c then 1#8 else 0#8

/-- Carry: 1 when the sum of the two bytes passes 255 (43_alu.md R166). -/
def carryFlag (a b : Byte) : Byte := flagByte (decide (a.toNat + b.toNat > 255))

/-- No borrow: 1 when the minuend is at least the subtrahend (R167, R172). -/
def noBorrowFlag (minuend subtrahend : Byte) : Byte := flagByte (decide (minuend.toNat ≥ subtrahend.toNat))

/-- The bit a right shift by one moves out: bit 0 (R168). -/
def shiftOutRight (b : Byte) : Byte := flagByte (b.getLsbD 0)

/-- The bit a left shift by one moves out: bit 7 (R170). -/
def shiftOutLeft (b : Byte) : Byte := flagByte (b.getLsbD 7)

/-- `V[0xF] <- flag` -/
def State.setFlag (s : State) (flag : Byte) : State := s.setV flagReg flag

/-- Result into Vx, then the flag into VF: with x = 0xF the flag is what VF holds afterwards (R171; D20, log 19). -/
def State.setVFlag (s : State) (x : Reg) (result flag : Byte) : State := (s.setV x result).setFlag flag

/-- The result of a bitwise instruction into Vx, then VF <- 0 when LOGIC_RESETS_VF is on (R163). -/
def State.setVLogic (s : State) (x : Reg) (result : Byte) : State :=
  if s.cfg.logicResetsVf then s.setVFlag x result 0#8 else s.setV x result

end Sys2Proof.Machine
end

