-- ==== Sys2Proof/Machine/Alu.lean ====
section
/-! DEFINITION. Register load, arithmetic, bitwise and shift instructions (43_alu.md): sources first, result to Vx, flag to VF
last, PC + 2 (R171). PRESUMED (log 18): the meanings the spec supplies from general knowledge. -/

namespace Sys2Proof.Machine

/-- LD Vx, NN (R160). -/
def execLdVxNn (x : Reg) (nn : Byte) (s : State) : Host.Outcome State Fault Refusal :=
  .next (s.setV x nn).advance

/-- ADD Vx, NN (R161): modulo 256, no flag. -/
def execAddVxNn (x : Reg) (nn : Byte) (s : State) : Host.Outcome State Fault Refusal :=
  .next (s.setV x (s.getV x + nn)).advance

/-- LD Vx, Vy (R162). -/
def execLdVxVy (x y : Reg) (s : State) : Host.Outcome State Fault Refusal :=
  .next (s.setV x (s.getV y)).advance

/-- OR Vx, Vy (R163). -/
def execOrVxVy (x y : Reg) (s : State) : Host.Outcome State Fault Refusal :=
  .next (s.setVLogic x (s.getV x ||| s.getV y)).advance

/-- AND Vx, Vy (R164). -/
def execAndVxVy (x y : Reg) (s : State) : Host.Outcome State Fault Refusal :=
  .next (s.setVLogic x (s.getV x &&& s.getV y)).advance

/-- XOR Vx, Vy (R165). -/
def execXorVxVy (x y : Reg) (s : State) : Host.Outcome State Fault Refusal :=
  .next (s.setVLogic x (s.getV x ^^^ s.getV y)).advance

/-- ADD Vx, Vy (R166): modulo 256, VF the carry. -/
def execAddVxVy (x y : Reg) (s : State) : Host.Outcome State Fault Refusal :=
  .next (s.setVFlag x (s.getV x + s.getV y) (carryFlag (s.getV x) (s.getV y))).advance

/-- SUB Vx, Vy (R167): Vx − Vy, VF no borrow. -/
def execSubVxVy (x y : Reg) (s : State) : Host.Outcome State Fault Refusal :=
  .next (s.setVFlag x (s.getV x - s.getV y) (noBorrowFlag (s.getV x) (s.getV y))).advance

/-- SHR Vx, Vy (R168): a logical shift by one of the source SHIFT_SRC selects, VF the bit out. -/
def execShrVxVy (x y : Reg) (s : State) : Host.Outcome State Fault Refusal :=
  .next (s.setVFlag x (s.shiftSource x y >>> 1) (shiftOutRight (s.shiftSource x y))).advance

/-- SUBN Vx, Vy (R169): Vy − Vx, VF no borrow. -/
def execSubnVxVy (x y : Reg) (s : State) : Host.Outcome State Fault Refusal :=
  .next (s.setVFlag x (s.getV y - s.getV x) (noBorrowFlag (s.getV y) (s.getV x))).advance

/-- SHL Vx, Vy (R170): a shift by one, VF the bit out. -/
def execShlVxVy (x y : Reg) (s : State) : Host.Outcome State Fault Refusal :=
  .next (s.setVFlag x (s.shiftSource x y <<< 1) (shiftOutLeft (s.shiftSource x y))).advance

end Sys2Proof.Machine
end

