-- ==== Sys2Proof/Machine/Display.lean ====
section
/-! DEFINITION. CLS, DRW and the sprite blitter (45_display.md). -/

namespace Sys2Proof.Machine

/-- Bit of a sprite byte at column `c` from the left: bit 7 is leftmost (R192). PRESUMED (log 26): the bit order. -/
def spriteBit (b : Byte) (c : Nat) : Bool := b.getLsbD (7 - c)

/-- The display pixel that column `px`, row `py` falls on: taken modulo 64 and 32 under wrap (R193), nothing beyond the edge
under clip (R194). -/
def placePixel (edge : DrawEdge) (px py : Nat) : Option (Fin 64 × Fin 32) :=
  match edge with
  | .wrap => some (Fin.ofNat 64 px, Fin.ofNat 32 py)
  | .clip => if px < 64 ∧ py < 32 then some (Fin.ofNat 64 px, Fin.ofNat 32 py) else none

/-- One sprite pixel: flips the display pixel under a 1 bit, and notes a collision when that pixel was set. -/
def drawPixel (edge : DrawEdge) (px py : Nat) (bit : Bool) (acc : Frame × Bool) : Frame × Bool :=
  match bit, placePixel edge px py with
  | true, some (x, y) => (Frame.set acc.1 x y (!Frame.get acc.1 x y), acc.2 || Frame.get acc.1 x y)
  | _, _ => acc

/-- One sprite row, left to right. -/
def drawRow (edge : DrawEdge) (x0 py : Nat) (b : Byte) (acc : Frame × Bool) : Frame × Bool :=
  (List.range 8).foldl (fun a c => drawPixel edge (x0 + c) py (spriteBit b c) a) acc

/-- The rows of a sprite, downward from display row `py`. -/
def drawRows (edge : DrawEdge) (x0 py : Nat) (sprite : List Byte) (acc : Frame × Bool) : Frame × Bool :=
  match sprite with
  | [] => acc
  | b :: rest => drawRows edge x0 (py + 1) rest (drawRow edge x0 py b acc)

/-- CLS (R190). -/
def execCls (s : State) : Host.Outcome State Fault Refusal :=
  .next (s.setFb Frame.blank).advance

/-- DRW Vx, Vy, N (R191): the N bytes at I are read under the bound of R195, drawn by XOR, and VF becomes the collision
(R196). With N = 0 nothing is read or drawn and VF becomes 0 (R198). -/
def execDrwVxVyN (x y : Reg) (n : Nat) (s : State) : Host.Outcome State Fault Refusal :=
  s.complete ((s.loadBytes s.dataBase n).map fun sprite =>
    let drawn := drawRows s.cfg.drawEdge (s.spriteColumn x) (s.spriteRow y) sprite (s.fb, false)
    ((s.setFb drawn.1).setFlag (flagByte drawn.2)).advance)

end Sys2Proof.Machine
end

