-- ==== Sys2Proof/Machine/Flow.lean ====
section
/-! DEFINITION. Jump, call and return (41_flow.md). A target is stored unchecked and the next fetch faults if it must (R144; D28,
log 25). -/

namespace Sys2Proof.Machine

/-- JP NNN (R140). -/
def execJpNnn (nnn : BitVec 12) (s : State) : Host.Outcome State Fault Refusal :=
  .next (s.setPc (addrOperand nnn))

/-- CALL NNN (R141): push PC + 2, or StackOverflow with 16 entries on the stack. -/
def execCallNnn (nnn : BitVec 12) (s : State) : Host.Outcome State Fault Refusal :=
  s.complete ((s.push (s.pc + 2#16)).map fun t => t.setPc (addrOperand nnn))

/-- RET (R142): pop into PC, or StackUnderflow on an empty stack. -/
def execRet (s : State) : Host.Outcome State Fault Refusal :=
  s.complete (s.pop.map fun r => r.2.setPc r.1)

/-- JP V0, NNN (R143): the sum is not reduced. -/
def execJpV0Nnn (nnn : BitVec 12) (s : State) : Host.Outcome State Fault Refusal :=
  .next (s.setPc (addrOperand nnn + zext16 (s.jumpOffset nnn)))

end Sys2Proof.Machine
end

