-- ==== Sys2Proof/Machine/MemoryIndex.lean ====
section
/-! DEFINITION. Index register and memory instructions (44_memory_index.md). A range is checked whole before anything is written
(R186). -/

namespace Sys2Proof.Machine

/-- LD I, NNN (R180). -/
def execLdINnn (nnn : BitVec 12) (s : State) : Host.Outcome State Fault Refusal :=
  .next (s.setI (addrOperand nnn)).advance

/-- ADD I, Vx (R181): modulo 65536, VF unchanged, no error (D16, log 12). -/
def execAddIVx (x : Reg) (s : State) : Host.Outcome State Fault Refusal :=
  .next (s.setI (s.i + zext16 (s.getV x))).advance

/-- LD F, Vx (R182): the glyph address of the low nibble. -/
def execLdFVx (x : Reg) (s : State) : Host.Outcome State Fault Refusal :=
  .next (s.setI (glyphAddress (s.lowNibble x))).advance

/-- LD B, Vx (R183): hundreds, tens, ones at I, I+1, I+2. -/
def execLdBVx (x : Reg) (s : State) : Host.Outcome State Fault Refusal :=
  s.complete ((s.storeBytes s.dataBase (bcdDigits (s.getV x))).map State.advance)

/-- LD [I], Vx (R184): V0 to Vx at I, I+1, ... -/
def execLdMemVx (x : Reg) (s : State) : Host.Outcome State Fault Refusal :=
  s.complete ((s.storeBytes s.dataBase (s.getVRange x)).map fun t => (t.setI (s.indexAfterBlock x)).advance)

/-- LD Vx, [I] (R185): V0 to Vx from I, I+1, ... -/
def execLdVxMem (x : Reg) (s : State) : Host.Outcome State Fault Refusal :=
  s.complete ((s.loadBytes s.dataBase (x.val + 1)).map fun bytes =>
    ((s.setVRange bytes).setI (s.indexAfterBlock x)).advance)

end Sys2Proof.Machine
end

