-- ==== Sys2Proof/Machine/RandomTimerKey.lean ====
section
/-! DEFINITION. Random, timer and key-wait instructions (46_random_timers_keywait.md). -/

namespace Sys2Proof.Machine

/-- RND Vx, NN (R200): a random byte and NN; the byte is consumed whatever NN is. -/
def execRndVxNn (x : Reg) (nn : Byte) (s : State) : Host.Outcome State Fault Refusal :=
  .next (s.afterDraw.setV x (s.nextRandom &&& nn)).advance

/-- LD Vx, DT (R201). -/
def execLdVxDt (x : Reg) (s : State) : Host.Outcome State Fault Refusal :=
  .next (s.setV x s.dt).advance

/-- LD DT, Vx (R202). -/
def execLdDtVx (x : Reg) (s : State) : Host.Outcome State Fault Refusal :=
  .next (s.setDt (s.getV x)).advance

/-- LD ST, Vx (R203). -/
def execLdStVx (x : Reg) (s : State) : Host.Outcome State Fault Refusal :=
  .next (s.setSt (s.getV x)).advance

/-- LD Vx, K, the entry step (R204): snapshot the keys and wait; PC does not move. The entry does not poll (D13, log 11). -/
def execLdVxK (x : Reg) (s : State) : Host.Outcome State Fault Refusal :=
  .next (s.snapshotKeys.setExec (.waitingForKey x))

/-- LD Vx, K, the poll of a waiting core (R204): with a newly pressed key, its number goes into Vx and the core runs on at
PC + 2; without one, only the snapshot is refreshed. -/
def State.pollKey (s : State) (x : Reg) : State :=
  match s.newKey with
  | none => s.snapshotKeys
  | some k => ((s.setV x (BitVec.ofNat 8 k.val)).snapshotKeys.setExec .running).advance

end Sys2Proof.Machine
end

