-- ==== Sys2Proof/Machine/Skip.lean ====
section
/-! DEFINITION. The six skips (42_skip.md): one condition each, and PC + 4 or PC + 2 (R156). The skipped word is not looked at. -/

namespace Sys2Proof.Machine

/-- SE Vx, NN (R150). -/
def execSeVxNn (x : Reg) (nn : Byte) (s : State) : Host.Outcome State Fault Refusal :=
  .next (s.skipIf (decide (s.getV x = nn)))

/-- SNE Vx, NN (R151). -/
def execSneVxNn (x : Reg) (nn : Byte) (s : State) : Host.Outcome State Fault Refusal :=
  .next (s.skipIf (decide (s.getV x ≠ nn)))

/-- SE Vx, Vy (R152). -/
def execSeVxVy (x y : Reg) (s : State) : Host.Outcome State Fault Refusal :=
  .next (s.skipIf (decide (s.getV x = s.getV y)))

/-- SNE Vx, Vy (R153). -/
def execSneVxVy (x y : Reg) (s : State) : Host.Outcome State Fault Refusal :=
  .next (s.skipIf (decide (s.getV x ≠ s.getV y)))

/-- SKP Vx (R154): the key's level, not a transition. -/
def execSkpVx (x : Reg) (s : State) : Host.Outcome State Fault Refusal :=
  .next (s.skipIf (s.keyDown (s.lowNibble x)))

/-- SKNP Vx (R155). -/
def execSknpVx (x : Reg) (s : State) : Host.Outcome State Fault Refusal :=
  .next (s.skipIf (!s.keyDown (s.lowNibble x)))

end Sys2Proof.Machine
end

