-- ==== Sys2Proof/Machine/Step.lean ====
section
/-! DEFINITION. The operation `step()` (40_step_cycle.md R111 to R116), and a word placed where it fetches. -/

namespace Sys2Proof.Machine

/-- `step()`: what it does depends on EXEC alone (R111). Running: fetch, decode, execute, or trap entry by the first of them
that raises (R112 to R114). Waiting: one poll, nothing fetched (R115). Halted: no state changes, and the status is still the
error (R116; `State.status`). -/
def step (s : State) : Host.Outcome State Fault Refusal :=
  match s.exec with
  | .running =>
    match s.fetchDecode with
    | .ok i => exec i s
    | .error e => .next (s.raise e)
  | .waitingForKey x => .next (s.pollKey x)
  | .halted _ => .next s

/-- The state with one instruction word put big-endian where `step` fetches next, and the core running, so that the next step
runs it. A fetch needs PC ≤ 0xFFE; from a higher PC the word goes to PROG_BASE and PC with it (log 34). -/
def State.withFetchWord (s : State) (_nbits w : Nat) : State :=
  let at_ : Word := if s.pc.toNat ≤ 0xFFE then s.pc else BitVec.ofNat 16 progBase
  let bytes := bytesOfWord (BitVec.ofNat 16 w)
  { s with exec := .running, pc := at_, mem := Memory.writeList s.mem at_.toNat [bytes.1, bytes.2] }

end Sys2Proof.Machine
end

