-- ==== Sys2Proof/Machine/Driver.lean ====
section
/-! DEFINITION. The driver's side of the core (40_step_cycle.md): its operations beside `step()`, and what it may read. -/

namespace Sys2Proof.Machine

/-- One timer after a tick: one less, floored at 0 (R118). -/
def tickDown (t : Byte) : Byte := if t.toNat > 0 then t - 1#8 else t

/-- `tick_timers()` (R118), the same in every state of EXEC (R119; D18, log 22). -/
def State.tickTimers (s : State) : State := { s with dt := tickDown s.dt, st := tickDown s.st }

/-- `set_key(index, pressed)` (R120): an index above 15 is answered by InvalidKeyIndex and changes nothing. -/
def State.writeKey (s : State) (index : Nat) (pressed : Bool) : Except Fault State :=
  if h : index < 16 then .ok { s with key := s.key.set index pressed h } else .error (.invalidKeyIndex index)

/-- `load(bytes)` (R121): the bytes at PROG_BASE and nothing else, or RomTooLarge and nothing at all (D19, log 22). -/
def State.loadRom (s : State) (bytes : List Byte) : Except Fault State :=
  if bytes.length > maxRom then .error .romTooLarge else .ok (s.setMem (Memory.writeList s.mem progBase bytes))

/-- The random byte of a later draw is supplied: it goes behind those already supplied (R123, R127; log 9). -/
def State.supplyRandom (s : State) (b : Byte) : State := { s with randomIn := s.randomIn ++ [b] }

/-- The operations of R110 and R127, and the supply of a random byte. -/
inductive Op where
  | reset (cfg : Configuration)
  | load (bytes : List Byte)
  | step
  | tickTimers
  | setKey (index : Nat) (pressed : Bool)
  | supplyRandom (b : Byte)
  deriving DecidableEq, Repr

/-- What an operation answers: a next state, or the error it reports to its caller, the state staying as it was (R215). -/
def reported (r : Except Fault State) : Host.Outcome State Fault Refusal :=
  match r with
  | .ok t => .next t
  | .error e => .fault e

/-- One operation of the driver, atomic (20_memory.md R60). Which comes next is the driver's free choice (R110; log 21). -/
def perform (op : Op) (s : State) : Host.Outcome State Fault Refusal :=
  match op with
  | .reset cfg => .next (State.resetWith cfg)
  | .load bytes => reported (s.loadRom bytes)
  | .step => step s
  | .tickTimers => .next s.tickTimers
  | .setKey index pressed => reported (s.writeKey index pressed)
  | .supplyRandom b => .next (s.supplyRandom b)

/-- The state after an operation: the answer's next state, or the state as it was when the operation reported an error. -/
def afterOp (s : State) (op : Op) : State :=
  match perform op s with
  | .next t => t
  | .fault _ => s
  | .refused _ => s

/-- The state after a schedule of operations, in order. -/
def afterOps (s : State) (ops : List Op) : State := ops.foldl afterOp s

/-- The status of a step (R117). -/
inductive Status where
  | ok
  | waiting
  | error (e : Fault)
  deriving DecidableEq, Repr

/-- The status a step returns is a function of EXEC after it (R117; D27, log 23). -/
def State.status (s : State) : Status :=
  match s.exec with
  | .running => .ok
  | .waitingForKey _ => .waiting
  | .halted e => .error e

/-- The output `frame` (R122). -/
def State.frame (s : State) : Frame := s.fb

/-- The output `sound_active`: ST > 0 (10_state.md R29, R122). -/
def State.soundActive (s : State) : Bool := decide (s.st.toNat > 0)

/-- The output `exec` (R122). -/
def State.execOut (s : State) : Exec := s.exec

end Sys2Proof.Machine
end

