-- ==== Sys2Proof/Safety.lean ====
section
/-! DEFINITION. The terms that claims are made in: a core that has not failed, the invariant of a core, and closed forms of the
spec's tables to hold `exec` against. -/

namespace Sys2Proof.Machine

/-- The core has halted with an error (60_exceptions.md R217). A run is safe as long as this does not hold. -/
def State.halted (s : State) : Bool :=
  match s.exec with
  | .running => false
  | .waitingForKey _ => false
  | .halted _ => true

/-- EXEC and the rest of the state fit together. A waiting core stands on an instruction that was fetched (10_state.md R25). The
error of a halted core is one a step raises, with the fields and in the situation of 60_exceptions.md R211 to R214. -/
def State.execFits (s : State) : Bool :=
  match s.exec with
  | .running => true
  | .waitingForKey _ => decide (s.pc.toNat ≤ 0xFFE)
  | .halted (.invalidOpcode a w) => decide (a = s.pc) && decide (s.pc.toNat ≤ 0xFFE) && decide (decodeWord w = none)
  | .halted .stackOverflow => decide (s.stack.length = 16)
  | .halted .stackUnderflow => decide (s.stack.length = 0)
  | .halted (.outOfBoundsMemoryAccess a) => decide (0xFFE < a) && decide (a ≤ 0xFFFF)
  | .halted .romTooLarge => false
  | .halted (.invalidKeyIndex _) => false

/-- The invariant of a core: the memory is in its canonical form, the stack holds at most 16 entries (10_state.md R27), each a
value some CALL pushed, at most 0x1000, PC is at most 0x10FE (R38), and EXEC fits. -/
def State.Inv (s : State) : Prop :=
  Memory.wf s.mem = true ∧ s.stack.length ≤ 16 ∧ (∀ a ∈ s.stack, a.toNat ≤ 0x1000) ∧ s.pc.toNat ≤ 0x10FE ∧
    s.execFits = true

/-- Every byte of memory reads in `t` as in `s`. -/
def State.SameBytes (s t : State) : Prop := ∀ a, Memory.read t.mem a = Memory.read s.mem a

/-- The word a fetch at address `a` reads, as a number: big-endian (20_memory.md R54). -/
def State.wordAt (s : State) (a : Nat) : Nat := (Memory.read s.mem a).toNat * 256 + (Memory.read s.mem (a + 1)).toNat

/-- Key `k` is newly pressed: down now and not in the snapshot (46_random_timers_keywait.md R204). -/
def State.NewlyPressed (s : State) (k : Key) : Prop := s.keyDown k = true ∧ s.keyWasDown k = false

end Sys2Proof.Machine

namespace Sys2Proof

/-- The instructions of the last row of 10_state.md R26: neither a jump, call, return, skip nor key-wait. -/
def Instr.ordinary : Instr → Bool
  | .cls => true
  | .ret => false
  | .jpNnn _ => false
  | .callNnn _ => false
  | .seVxNn _ _ => false
  | .sneVxNn _ _ => false
  | .seVxVy _ _ => false
  | .ldVxNn _ _ => true
  | .addVxNn _ _ => true
  | .ldVxVy _ _ => true
  | .orVxVy _ _ => true
  | .andVxVy _ _ => true
  | .xorVxVy _ _ => true
  | .addVxVy _ _ => true
  | .subVxVy _ _ => true
  | .shrVxVy _ _ => true
  | .subnVxVy _ _ => true
  | .shlVxVy _ _ => true
  | .sneVxVy _ _ => false
  | .ldINnn _ => true
  | .jpV0Nnn _ => false
  | .rndVxNn _ _ => true
  | .drwVxVyN _ _ _ => true
  | .skpVx _ => false
  | .sknpVx _ => false
  | .ldVxDt _ => true
  | .ldVxK _ => false
  | .ldDtVx _ => true
  | .ldStVx _ => true
  | .addIVx _ => true
  | .ldFVx _ => true
  | .ldBVx _ => true
  | .ldMemVx _ => true
  | .ldVxMem _ => true

/-- The column "writes" of 10_state.md R23: whether the instruction writes V[k] in its own step (LD Vx, K writes at the
completion of the wait, by a poll). -/
def Instr.writesV (cfg : Configuration) (k : Reg) : Instr → Bool
  | .cls => false
  | .ret => false
  | .jpNnn _ => false
  | .callNnn _ => false
  | .seVxNn _ _ => false
  | .sneVxNn _ _ => false
  | .seVxVy _ _ => false
  | .ldVxNn x _ => decide (k = x)
  | .addVxNn x _ => decide (k = x)
  | .ldVxVy x _ => decide (k = x)
  | .orVxVy x _ => decide (k = x) || (decide (k = 15) && cfg.logicResetsVf)
  | .andVxVy x _ => decide (k = x) || (decide (k = 15) && cfg.logicResetsVf)
  | .xorVxVy x _ => decide (k = x) || (decide (k = 15) && cfg.logicResetsVf)
  | .addVxVy x _ => decide (k = x) || decide (k = 15)
  | .subVxVy x _ => decide (k = x) || decide (k = 15)
  | .shrVxVy x _ => decide (k = x) || decide (k = 15)
  | .subnVxVy x _ => decide (k = x) || decide (k = 15)
  | .shlVxVy x _ => decide (k = x) || decide (k = 15)
  | .sneVxVy _ _ => false
  | .ldINnn _ => false
  | .jpV0Nnn _ => false
  | .rndVxNn x _ => decide (k = x)
  | .drwVxVyN _ _ _ => decide (k = 15)
  | .skpVx _ => false
  | .sknpVx _ => false
  | .ldVxDt x => decide (k = x)
  | .ldVxK _ => false
  | .ldDtVx _ => false
  | .ldStVx _ => false
  | .addIVx _ => false
  | .ldFVx _ => false
  | .ldBVx _ => false
  | .ldMemVx _ => false
  | .ldVxMem x => decide (k ≤ x)

/-- The nine instructions whose effect the configuration changes (30_encoding.md R93). -/
def Instr.dependsOnConfig : Instr → Bool
  | .cls => false
  | .ret => false
  | .jpNnn _ => false
  | .callNnn _ => false
  | .seVxNn _ _ => false
  | .sneVxNn _ _ => false
  | .seVxVy _ _ => false
  | .ldVxNn _ _ => false
  | .addVxNn _ _ => false
  | .ldVxVy _ _ => false
  | .orVxVy _ _ => true
  | .andVxVy _ _ => true
  | .xorVxVy _ _ => true
  | .addVxVy _ _ => false
  | .subVxVy _ _ => false
  | .shrVxVy _ _ => true
  | .subnVxVy _ _ => false
  | .shlVxVy _ _ => true
  | .sneVxVy _ _ => false
  | .ldINnn _ => false
  | .jpV0Nnn _ => true
  | .rndVxNn _ _ => false
  | .drwVxVyN _ _ _ => true
  | .skpVx _ => false
  | .sknpVx _ => false
  | .ldVxDt _ => false
  | .ldVxK _ => false
  | .ldDtVx _ => false
  | .ldStVx _ => false
  | .addIVx _ => false
  | .ldFVx _ => false
  | .ldBVx _ => false
  | .ldMemVx _ => true
  | .ldVxMem _ => true

end Sys2Proof

namespace Sys2Proof.Machine

/-- Some 1 bit of an n-row sprite with first column x0 and first row y0 falls on display pixel (px, py), and is drawn
(45_display.md R192 to R194): row r is the byte at I + r, column c its bit 7 − c, and the position is taken modulo 64 and 32
under wrap, and as it is, within the display, under clip. -/
def State.SpriteHits (s : State) (x0 y0 n : Nat) (px : Fin 64) (py : Fin 32) : Prop :=
  ∃ r c : Nat, r < n ∧ c < 8 ∧ (Memory.read s.mem (s.i.toNat + r)).toNat / 2 ^ (7 - c) % 2 = 1 ∧
    (s.cfg.drawEdge = .wrap → (x0 + c) % 64 = px.val ∧ (y0 + r) % 32 = py.val) ∧
    (s.cfg.drawEdge = .clip → x0 + c = px.val ∧ y0 + r = py.val)

end Sys2Proof.Machine
end

