-- ==== Sys2Proof/Certificates/Slice0/Obligations.lean ====
section
/-! DEFINITION. The statements for the provers. Each docstring names the rules of spec/ it rests on. In a result statement the
clause `t = s with ...` says that every part of the state not named in it is unchanged, and `SameBytes` that every byte of
memory reads as before. "Pattern: log 17" marks an encoding that the spec supplies from general knowledge (its G2, G5, G13,
G14), "meaning: log 18" an effect it supplies so (G3, G4, G5, G6, G9, G10). -/

open Sys2Proof Sys2Proof.Machine

/-! ## Reset -/

/-- 70_reset_and_hazards.md R231: PC = 0x200 and EXEC = Running after reset, whatever the configuration, and the first step
fetches from 0x200 (here with any program `m` in memory). -/
def Obligations.EntryPointAfterReset : Prop :=
  ∀ cfg : Configuration, (State.resetWith cfg).pc.toNat = 0x200 ∧ (State.resetWith cfg).exec = .running ∧
    ∀ (m : Memory) (w : Word) (i : Instr),
      w.toNat = (Memory.read m 0x200).toNat * 256 + (Memory.read m 0x201).toNat → decodeWord w = some i →
      step { State.resetWith cfg with mem := m } = exec i { State.resetWith cfg with mem := m }

/-- The rest of the reset state (10_state.md section 10). Derived: the zeros are the spec's decisions D7 and D8 (log 7, 8), the
font region's place is D6 (log 5). The font is any: row r of the glyph of digit d stands at 0x050 + 5d + r (R8, R41). -/
def Obligations.ResetClearsEverythingElse : Prop :=
  ∀ cfg : Configuration, let s := State.resetWith cfg
    s.cfg = cfg ∧ (∀ k, s.getV k = 0#8) ∧ s.i.toNat = 0 ∧ s.stack = [] ∧ s.dt.toNat = 0 ∧ s.st.toNat = 0 ∧
    s.soundActive = false ∧ (∀ x y, Frame.get s.fb x y = false) ∧ (∀ k, s.keyDown k = false) ∧
    (∀ k, s.keyWasDown k = false) ∧
    (∀ (d : Fin 16) (r : Fin 5), Memory.read s.mem (0x050 + 5 * d.val + r.val) = (cfg.font[d])[r]) ∧
    (∀ a, a < 0x050 ∨ 0x09F < a → Memory.read s.mem a = 0#8)

/-! ## Invariants -/

/-- The invariant holds at `State.reset`, and after a reset with any configuration. Derived: that the stack is empty then is D7
(log 7). -/
def Obligations.ResetMeetsInvariant : Prop := State.reset.Inv ∧ ∀ cfg : Configuration, (State.resetWith cfg).Inv

/-- Every step keeps the invariant: canonical memory, at most 16 stack entries, each at most 0x1000, PC at most 0x10FE, and an
executor state that fits (10_state.md R27, R38; 60_exceptions.md R214). -/
def Obligations.StepKeepsInvariant : Prop := ∀ s t : State, s.Inv → step s = .next t → t.Inv

/-- Every schedule of driver operations keeps the invariant, in whatever order they come (40_step_cycle.md R110). -/
def Obligations.EveryScheduleKeepsInvariant : Prop := ∀ (ops : List Op) (s : State), s.Inv → (afterOps s ops).Inv

/-! ## The step cycle -/

/-- A step runs the decoded instruction: when the two bytes at PC decode to a well-formed instruction, `step` is `exec` of it at
that same state. PC is moved by the instruction's own meaning and by nothing around it. -/
def Obligations.StepRunsDecodedInstruction : Prop :=
  ∀ (s : State) (i : Instr), s.exec = .running → s.pc.toNat ≤ 0xFFE → i.wellFormed = true →
    decode [Memory.read s.mem s.pc.toNat, Memory.read s.mem (s.pc.toNat + 1)] = .ok (i, []) → step s = exec i s

/-- Fetch and decode (40_step_cycle.md R112, R113; 60_exceptions.md R211): the fetch reads MEM[PC]·256 + MEM[PC+1] and faults
above 0xFFE, a word that matches no row raises InvalidOpcode with PC and the word, and either fault changes EXEC and nothing
else. Derived: that nothing else changes is D11 (log 15), that the fetch fault carries PC is D12 (log 16). -/
def Obligations.FetchThenDecode : Prop :=
  ∀ s : State, s.exec = .running →
    (s.pc.toNat > 0xFFE → step s = .next { s with exec := .halted (.outOfBoundsMemoryAccess s.pc.toNat) }) ∧
    (s.pc.toNat ≤ 0xFFE → ∀ w : Word, w.toNat = s.wordAt s.pc.toNat →
      (decodeWord w = none → step s = .next { s with exec := .halted (.invalidOpcode s.pc w) }) ∧
      (∀ i, decodeWord w = some i → step s = exec i s))

/-- 40_step_cycle.md R116: on a halted core any number of steps changes no state, and the status is the same error each time. -/
def Obligations.HaltedStepsAreNoOps : Prop :=
  ∀ (s : State) (e : Fault) (n : Nat), s.exec = .halted e →
    step s = .next s ∧ afterOps s (List.replicate n .step) = s ∧ (afterOps s (List.replicate n .step)).status = .error e

/-- 40_step_cycle.md R124: no state is stuck. A step answers a next state in every state, and every other operation answers a
next state or reports an error to its caller. -/
def Obligations.EveryOperationIsEnabled : Prop :=
  (∀ s : State, ∃ t, step s = .next t) ∧
  (∀ (s : State) (op : Op), (∃ t, perform op s = .next t) ∨
    (perform op s = .fault .romTooLarge ∧ ∃ l, op = .load l) ∨ (∃ k p, op = .setKey k p ∧ perform op s = .fault (.invalidKeyIndex k)))

/-- Errors are precise (60_exceptions.md R217). Derived: that a faulting step leaves everything but EXEC as it was is D11 (log 15). -/
def Obligations.RaisingStepChangesOnlyExec : Prop :=
  ∀ (s t : State) (e : Fault), step s = .next t → t.exec = .halted e → t = { s with exec := .halted e }

/-- The transitions of the executor (10_state.md R32): Running goes on, waits after LD Vx, K, or halts on one of four errors; a
waiting core goes on waiting for the same register or runs on once a key is newly pressed; a halted one stays.
Derived: what newly pressed means is D13 (log 11). -/
def Obligations.ExecutorTransitions : Prop :=
  ∀ s t : State, step s = .next t →
    (s.exec = .running → t.exec = .running ∨ (∃ x, s.fetchDecode = .ok (.ldVxK x) ∧ t.exec = .waitingForKey x) ∨
      (∃ a w, t.exec = .halted (.invalidOpcode a w)) ∨ t.exec = .halted .stackOverflow ∨ t.exec = .halted .stackUnderflow ∨
      ∃ a, t.exec = .halted (.outOfBoundsMemoryAccess a)) ∧
    (∀ x, s.exec = .waitingForKey x → t.exec = .waitingForKey x ∨ (t.exec = .running ∧ ∃ k, s.NewlyPressed k)) ∧
    (∀ e, s.exec = .halted e → t.exec = .halted e)

/-- Only reset leaves Halted (60_exceptions.md R218): no other operation changes EXEC, PC, V, I, the stack or the display of a
halted core. Derived: that the timers, keys and memory may still change is D18 and D19 (log 22). -/
def Obligations.OnlyResetLeavesHalted : Prop :=
  ∀ (s : State) (e : Fault) (op : Op), s.exec = .halted e → (∀ cfg, op ≠ .reset cfg) →
    (afterOp s op).exec = .halted e ∧ (afterOp s op).pc = s.pc ∧ (∀ k, (afterOp s op).getV k = s.getV k) ∧
    (afterOp s op).i = s.i ∧ (afterOp s op).stack = s.stack ∧ (afterOp s op).fb = s.fb

/-! ## Whole-machine rules -/

/-- The last row of 10_state.md R26: every instruction that is no jump, call, return, skip or key-wait, and raises no error,
advances PC by 2; one that raises leaves PC. Derived: that one that raises leaves everything but EXEC is D11 (log 15;
60_exceptions.md R217). -/
def Obligations.OrdinaryInstructionsAdvanceByTwo : Prop :=
  ∀ (i : Instr) (s t : State), i.ordinary = true → exec i s = .next t →
    (t.exec = s.exec ∧ t.pc = s.pc + 2#16) ∨ (∃ a, t = { s with exec := .halted (.outOfBoundsMemoryAccess a) })

/-- 10_state.md R23, the column of writes: an instruction changes no V register that the table does not give it. -/
def Obligations.RegistersWrittenAreTheTables : Prop :=
  ∀ (i : Instr) (s t : State) (k : Reg), exec i s = .next t → i.writesV s.cfg k = false → t.getV k = s.getV k

/-- Who writes the display, the stack and I. Only CLS and DRW change the display (10_state.md R30); only CALL and RET touch the
stack (R27); I is written by LD I, ADD I, LD F, and by the two block transfers under LOADSTORE_INC_I (R24). -/
def Obligations.WritersOfDisplayStackAndIndex : Prop :=
  ∀ (i : Instr) (s t : State), exec i s = .next t →
    (t.fb ≠ s.fb → i = .cls ∨ ∃ x y n, i = .drwVxVyN x y n) ∧
    (t.stack ≠ s.stack → i = .ret ∨ ∃ nnn, i = .callNnn nnn) ∧
    (t.i ≠ s.i → (∃ nnn, i = .ldINnn nnn) ∨ (∃ x, i = .addIVx x) ∨ (∃ x, i = .ldFVx x) ∨
      (((∃ x, i = .ldMemVx x) ∨ ∃ x, i = .ldVxMem x) ∧ s.cfg.loadStoreIncI = true))

/-- Only LD B and LD [I] change memory, and only their own range (20_memory.md R58). -/
def Obligations.OnlyTwoInstructionsStore : Prop :=
  ∀ (i : Instr) (s t : State) (a : Nat), exec i s = .next t → Memory.read t.mem a ≠ Memory.read s.mem a →
    ((∃ x, i = .ldBVx x) ∧ s.i.toNat ≤ a ∧ a ≤ s.i.toNat + 2 ∧ a ≤ 0xFFF) ∨
    (∃ x : Reg, i = .ldMemVx x ∧ s.i.toNat ≤ a ∧ a ≤ s.i.toNat + x.val ∧ a ≤ 0xFFF)

/-- No step writes KEY or the configuration (10_state.md R31, 00_scope.md R9), a timer is written by its own instruction alone
(R28), and only RND takes a random byte (40_step_cycle.md R123). -/
def Obligations.StepLeavesKeysConfigTimersRandom : Prop :=
  ∀ s t : State, step s = .next t →
    t.key = s.key ∧ t.cfg = s.cfg ∧
    ((∀ x, s.fetchDecode ≠ .ok (.ldDtVx x)) → t.dt = s.dt) ∧ ((∀ x, s.fetchDecode ≠ .ok (.ldStVx x)) → t.st = s.st) ∧
    ((∀ x nn, s.fetchDecode ≠ .ok (.rndVxNn x nn)) → t.randomIn = s.randomIn ∧ t.draws = s.draws)

/-- The configuration changes the effect of nine instructions only (30_encoding.md R93): under any other configuration the
others do the same. -/
def Obligations.ConfigurationReachesNineInstructions : Prop :=
  ∀ (i : Instr) (s t : State) (cfg : Configuration), i.dependsOnConfig = false → exec i s = .next t →
    exec i { s with cfg := cfg } = .next { t with cfg := cfg }

/-- A tick and an instruction that names no timer commute: timer decay does not depend on the steps between ticks
(40_step_cycle.md R118, R126). -/
def Obligations.TicksCommuteWithInstructions : Prop :=
  ∀ (i : Instr) (s t : State), (∀ x, i ≠ .ldVxDt x) → (∀ x, i ≠ .ldDtVx x) → (∀ x, i ≠ .ldStVx x) → exec i s = .next t →
    exec i s.tickTimers = .next t.tickTimers

/-- A program can observe the display only through the collision flag of DRW (10_state.md R30): on two cores that differ in the
display alone, any other instruction does the same to everything else. -/
def Obligations.DisplayIsHiddenFromOtherInstructions : Prop :=
  ∀ (i : Instr) (s t : State) (f : Frame), (∀ x y n, i ≠ .drwVxVyN x y n) → exec i s = .next t →
    ∃ g, exec i { s with fb := f } = .next { t with fb := g }

/-! ## Encoding -/

/-- Decode and encode agree: the bytes of every well-formed instruction, with anything after them, decode to it. Pattern:
log 17. -/
def Obligations.DecodeOfEncode : Prop :=
  ∀ (i : Instr) (rest : List Byte), i.wellFormed = true → decode (encodeBytes i ++ rest) = .ok (i, rest)

/-- Each valid word is the encoding of the one instruction it decodes to (30_encoding.md R92: no unused operand bits, no word
with two readings). -/
def Obligations.EncodeOfDecode : Prop :=
  ∀ (w : Word) (i : Instr), decodeWord w = some i → i.wellFormed = true ∧ encodeWord i = w

/-- The invalid words are exactly those of 30_encoding.md R91. Derived: the strictness in groups 0, 5 and 9 is D10, and the sub-opcodes
that the source does not print are G2, G5, G13 and G14. Pattern: log 17. -/
def Obligations.InvalidWordsListed : Prop :=
  ∀ w : Word, decodeWord w = none ↔
    (w.toNat / 0x1000 = 0 ∧ w.toNat ≠ 0x00E0 ∧ w.toNat ≠ 0x00EE) ∨
    ((w.toNat / 0x1000 = 5 ∨ w.toNat / 0x1000 = 9) ∧ w.toNat % 16 ≠ 0) ∨
    (w.toNat / 0x1000 = 8 ∧ w.toNat % 16 ∈ [8, 9, 0xA, 0xB, 0xC, 0xD, 0xF]) ∨
    (w.toNat / 0x1000 = 0xE ∧ w.toNat % 256 ∉ [0x9E, 0xA1]) ∨
    (w.toNat / 0x1000 = 0xF ∧ w.toNat % 256 ∉ [0x07, 0x0A, 0x15, 0x18, 0x1E, 0x29, 0x33, 0x55, 0x65])

/-- Words written out from the spec's vectors, one of each family, decode to what they stand for (95_test_vectors.md). Derived: the
patterns 3XNN of 0x332A and FX33 of 0xF333 are G2. Pattern: log 17. -/
def Obligations.WrittenOutWordsDecode : Prop :=
  decode [0x23, 0x00] = .ok (.callNnn 0x300, []) ∧ decode [0x33, 0x2A] = .ok (.seVxNn 3 0x2A, []) ∧
  decode [0x6A, 0x2B] = .ok (.ldVxNn 10 0x2B, []) ∧ decode [0x80, 0x14] = .ok (.addVxVy 0 1, []) ∧
  decode [0xF3, 0x33] = .ok (.ldBVx 3, []) ∧ decode [0xD1, 0x25] = .ok (.drwVxVyN 1 2 5, []) ∧
  decode [0xF3, 0x0A] = .ok (.ldVxK 3, []) ∧ decode [0xFF, 0xFF] = .error (.invalidWord 0xFFFF)

/-! ## Memory -/

/-- 20_memory.md R52 and R53: a byte access above 0xFFF raises the error with its address and changes nothing; a write below is
read back and leaves every other address alone. -/
def Obligations.ByteReadAfterWrite : Prop :=
  ∀ (s : State) (a : Nat) (b : Byte),
    (a > 0xFFF → s.memRead a = .error (.outOfBoundsMemoryAccess a) ∧ s.memWrite a b = .error (.outOfBoundsMemoryAccess a)) ∧
    (a ≤ 0xFFF → s.memRead a = .ok (Memory.read s.mem a) ∧ ∃ t, s.memWrite a b = .ok t ∧ t = { s with mem := t.mem } ∧
      t.memRead a = .ok b ∧ ∀ c, c ≠ a → t.memRead c = s.memRead c)

/-- The canonical form of memory is one: two memories in it that read alike are the same list (log 30). -/
def Obligations.EqualBytesEqualMemories : Prop :=
  ∀ m m' : Memory, Memory.wf m = true → Memory.wf m' = true → (∀ a, a ≤ 0xFFF → Memory.read m a = Memory.read m' a) → m = m'

/-- A word stored by the program at PC is the word the next step runs (20_memory.md R62): nothing sits between memory and fetch. -/
def Obligations.StoredWordIsFetchedNext : Prop :=
  ∀ (s t u : State) (w : Word) (i : Instr), s.exec = .running → s.pc.toNat ≤ 0xFFE → decodeWord w = some i →
    s.memWrite s.pc.toNat (BitVec.ofNat 8 (w.toNat / 256)) = .ok t →
    t.memWrite (s.pc.toNat + 1) (BitVec.ofNat 8 w.toNat) = .ok u → step u = exec i u

/-! ## Flow (41_flow.md) -/

/-- JP NNN (R140). Derived: that a target beyond the last fetchable address is stored unchecked is D28 (log 25). Pattern: log 17. -/
def Obligations.JumpGoesToItsAddress : Prop :=
  (∀ nnn : BitVec 12, decodeWord (BitVec.ofNat 16 (0x1000 + nnn.toNat)) = some (.jpNnn nnn)) ∧
  ∀ (nnn : BitVec 12) (s : State), ∃ t, exec (.jpNnn nnn) s = .next t ∧
    t.pc.toNat = nnn.toNat ∧ t = { s with pc := t.pc } ∧ s.SameBytes t

/-- CALL NNN (R141): PC + 2 is pushed and PC becomes the address; with 16 entries on the stack, the core halts and nothing else
changes. Derived: that nothing else changes then is D11 (log 15), that the target is stored unchecked is D28 (log 25). -/
def Obligations.CallPushesReturnAddress : Prop :=
  (∀ nnn : BitVec 12, decodeWord (BitVec.ofNat 16 (0x2000 + nnn.toNat)) = some (.callNnn nnn)) ∧
  ∀ (nnn : BitVec 12) (s : State),
    (s.stack.length < 16 → ∃ t, exec (.callNnn nnn) s = .next t ∧ t.stack = (s.pc + 2#16) :: s.stack ∧
      t.pc.toNat = nnn.toNat ∧ t = { s with stack := t.stack, pc := t.pc } ∧ s.SameBytes t) ∧
    (16 ≤ s.stack.length → exec (.callNnn nnn) s = .next { s with exec := .halted .stackOverflow })

/-- RET (R142): the newest entry leaves the stack and becomes PC; on an empty stack, the core halts and nothing else changes.
Derived: that nothing else changes then is D11 (log 15). -/
def Obligations.ReturnPopsIntoPc : Prop :=
  decodeWord 0x00EE#16 = some .ret ∧
  ∀ s : State,
    (∀ a rest, s.stack = a :: rest → ∃ t, exec .ret s = .next t ∧ t.pc = a ∧ t.stack = rest ∧
      t = { s with stack := t.stack, pc := t.pc } ∧ s.SameBytes t) ∧
    (s.stack = [] → exec .ret s = .next { s with exec := .halted .stackUnderflow })

/-- JP V0, NNN (R143): the sum of the address and V0, or under JUMP_BASE = VX the register of the address's top digit, not
reduced. Derived: that the register is added is G9 (meaning: log 18), that the sum is stored unchecked is D28 (log 25). -/
def Obligations.IndexedJumpAddsRegister : Prop :=
  (∀ nnn : BitVec 12, decodeWord (BitVec.ofNat 16 (0xB000 + nnn.toNat)) = some (.jpV0Nnn nnn)) ∧
  ∀ (nnn : BitVec 12) (s : State), ∃ t, exec (.jpV0Nnn nnn) s = .next t ∧
    (s.cfg.jumpBase = .v0 → t.pc.toNat = nnn.toNat + (s.getV 0).toNat) ∧
    (s.cfg.jumpBase = .vx → ∀ x : Reg, x.val = nnn.toNat / 256 → t.pc.toNat = nnn.toNat + (s.getV x).toNat) ∧
    t = { s with pc := t.pc } ∧ s.SameBytes t

/-- A call and the return after it come back to the instruction after the call, the stack as it was (41_flow.md R141, R142; the
source's example X7). -/
def Obligations.ReturnUndoesCall : Prop :=
  ∀ (nnn : BitVec 12) (s : State), s.stack.length < 16 →
    ∃ t u, exec (.callNnn nnn) s = .next t ∧ exec .ret t = .next u ∧ u = { s with pc := s.pc + 2#16 }

/-! ## Skips (42_skip.md) -/

/-- SE and SNE with an immediate (R150, R151). Pattern: log 17; meaning: log 18. -/
def Obligations.SkipComparesImmediate : Prop :=
  (∀ (x : Reg) (nn : Byte), decodeWord (BitVec.ofNat 16 (0x3000 + x.val * 0x100 + nn.toNat)) = some (.seVxNn x nn) ∧
    decodeWord (BitVec.ofNat 16 (0x4000 + x.val * 0x100 + nn.toNat)) = some (.sneVxNn x nn)) ∧
  ∀ (x : Reg) (nn : Byte) (s : State),
    (∃ t, exec (.seVxNn x nn) s = .next t ∧ ((s.getV x).toNat = nn.toNat → t.pc = s.pc + 4#16) ∧
      ((s.getV x).toNat ≠ nn.toNat → t.pc = s.pc + 2#16) ∧ t = { s with pc := t.pc } ∧ s.SameBytes t) ∧
    (∃ t, exec (.sneVxNn x nn) s = .next t ∧ ((s.getV x).toNat ≠ nn.toNat → t.pc = s.pc + 4#16) ∧
      ((s.getV x).toNat = nn.toNat → t.pc = s.pc + 2#16) ∧ t = { s with pc := t.pc } ∧ s.SameBytes t)

/-- SE and SNE with a register (R152, R153). Pattern: log 17; meaning: log 18. -/
def Obligations.SkipComparesRegisters : Prop :=
  (∀ x y : Reg, decodeWord (BitVec.ofNat 16 (0x5000 + x.val * 0x100 + y.val * 0x10)) = some (.seVxVy x y) ∧
    decodeWord (BitVec.ofNat 16 (0x9000 + x.val * 0x100 + y.val * 0x10)) = some (.sneVxVy x y)) ∧
  ∀ (x y : Reg) (s : State),
    (∃ t, exec (.seVxVy x y) s = .next t ∧ ((s.getV x).toNat = (s.getV y).toNat → t.pc = s.pc + 4#16) ∧
      ((s.getV x).toNat ≠ (s.getV y).toNat → t.pc = s.pc + 2#16) ∧ t = { s with pc := t.pc } ∧ s.SameBytes t) ∧
    (∃ t, exec (.sneVxVy x y) s = .next t ∧ ((s.getV x).toNat ≠ (s.getV y).toNat → t.pc = s.pc + 4#16) ∧
      ((s.getV x).toNat = (s.getV y).toNat → t.pc = s.pc + 2#16) ∧ t = { s with pc := t.pc } ∧ s.SameBytes t)

/-- SKP and SKNP (R154, R155). Derived: that SKP skips on a pressed key and SKNP on one not pressed is G3 (meaning: log 18), that the
key is the low nibble of Vx is D14 (log 14). Pattern: log 17. -/
def Obligations.SkipTestsKey : Prop :=
  (∀ x : Reg, decodeWord (BitVec.ofNat 16 (0xE09E + x.val * 0x100)) = some (.skpVx x) ∧
    decodeWord (BitVec.ofNat 16 (0xE0A1 + x.val * 0x100)) = some (.sknpVx x)) ∧
  ∀ (x : Reg) (k : Key) (s : State), (s.getV x).toNat % 16 = k.val →
    (∃ t, exec (.skpVx x) s = .next t ∧ (s.keyDown k = true → t.pc = s.pc + 4#16) ∧
      (s.keyDown k = false → t.pc = s.pc + 2#16) ∧ t = { s with pc := t.pc } ∧ s.SameBytes t) ∧
    (∃ t, exec (.sknpVx x) s = .next t ∧ (s.keyDown k = false → t.pc = s.pc + 4#16) ∧
      (s.keyDown k = true → t.pc = s.pc + 2#16) ∧ t = { s with pc := t.pc } ∧ s.SameBytes t)

/-! ## Register load, arithmetic, bitwise, shift (43_alu.md) -/

/-- R160, LD Vx, NN. -/
def Obligations.LoadImmediate : Prop :=
  (∀ (x : Reg) (nn : Byte), decodeWord (BitVec.ofNat 16 (0x6000 + x.val * 0x100 + nn.toNat)) = some (.ldVxNn x nn)) ∧
  ∀ (x : Reg) (nn : Byte) (s : State), ∃ t, exec (.ldVxNn x nn) s = .next t ∧
    t.getV x = nn ∧ (∀ k, k ≠ x → t.getV k = s.getV k) ∧ t.pc = s.pc + 2#16 ∧ t = { s with v := t.v, pc := t.pc } ∧ s.SameBytes t

/-- LD Vx, Vy (R162). Derived: that 8XY0 is the copy is G5. Pattern: log 17; meaning: log 18. -/
def Obligations.CopyRegister : Prop :=
  (∀ x y : Reg, decodeWord (BitVec.ofNat 16 (0x8000 + x.val * 0x100 + y.val * 0x10)) = some (.ldVxVy x y)) ∧
  ∀ (x y : Reg) (s : State), ∃ t, exec (.ldVxVy x y) s = .next t ∧
    t.getV x = s.getV y ∧ (∀ k, k ≠ x → t.getV k = s.getV k) ∧ t.pc = s.pc + 2#16 ∧ t = { s with v := t.v, pc := t.pc } ∧
    s.SameBytes t

/-- ADD Vx, NN (R161): modulo 256, and no flag. Derived: the whole rule is G4. Pattern: log 17; meaning: log 18. -/
def Obligations.AddImmediateWrapsWithoutFlag : Prop :=
  (∀ (x : Reg) (nn : Byte), decodeWord (BitVec.ofNat 16 (0x7000 + x.val * 0x100 + nn.toNat)) = some (.addVxNn x nn)) ∧
  ∀ (x : Reg) (nn : Byte) (s : State), ∃ t, exec (.addVxNn x nn) s = .next t ∧
    (t.getV x).toNat = ((s.getV x).toNat + nn.toNat) % 256 ∧ (∀ k, k ≠ x → t.getV k = s.getV k) ∧
    t.pc = s.pc + 2#16 ∧ t = { s with v := t.v, pc := t.pc } ∧ s.SameBytes t

/-- OR, AND and XOR (R163, R164, R165) bit by bit into Vx; VF becomes 0 afterwards, result or not, when LOGIC_RESETS_VF is on,
and is an ordinary register when it is off. Derived: the order of the two writes is D20 (log 19). Pattern: log 17. -/
def Obligations.LogicBitByBit : Prop :=
  (∀ x y : Reg, decodeWord (BitVec.ofNat 16 (0x8001 + x.val * 0x100 + y.val * 0x10)) = some (.orVxVy x y) ∧
    decodeWord (BitVec.ofNat 16 (0x8002 + x.val * 0x100 + y.val * 0x10)) = some (.andVxVy x y) ∧
    decodeWord (BitVec.ofNat 16 (0x8003 + x.val * 0x100 + y.val * 0x10)) = some (.xorVxVy x y)) ∧
  ∀ (x y : Reg) (s : State) (i : Instr) (op : Bool → Bool → Bool),
    (i = .orVxVy x y ∧ op = or) ∨ (i = .andVxVy x y ∧ op = and) ∨ (i = .xorVxVy x y ∧ op = xor) →
    ∃ t, exec i s = .next t ∧
      (x ≠ 15 ∨ s.cfg.logicResetsVf = false →
        ∀ j, (t.getV x).getLsbD j = op ((s.getV x).getLsbD j) ((s.getV y).getLsbD j)) ∧
      (s.cfg.logicResetsVf = true → t.getV 15 = 0#8) ∧
      (∀ k, k ≠ x → k ≠ 15 ∨ s.cfg.logicResetsVf = false → t.getV k = s.getV k) ∧
      t.pc = s.pc + 2#16 ∧ t = { s with v := t.v, pc := t.pc } ∧ s.SameBytes t

/-- R166, ADD Vx, Vy: the sum modulo 256, and VF the carry, which is what VF holds also when x = 0xF. -/
def Obligations.AddSetsCarry : Prop :=
  (∀ x y : Reg, decodeWord (BitVec.ofNat 16 (0x8004 + x.val * 0x100 + y.val * 0x10)) = some (.addVxVy x y)) ∧
  ∀ (x y : Reg) (s : State), ∃ t, exec (.addVxVy x y) s = .next t ∧
    (x ≠ 15 → (t.getV x).toNat = ((s.getV x).toNat + (s.getV y).toNat) % 256) ∧
    (t.getV 15).toNat = ((s.getV x).toNat + (s.getV y).toNat) / 256 ∧
    (∀ k, k ≠ x → k ≠ 15 → t.getV k = s.getV k) ∧
    t.pc = s.pc + 2#16 ∧ t = { s with v := t.v, pc := t.pc } ∧ s.SameBytes t

/-- SUB is Vx − Vy and SUBN Vy − Vx (R167, R169), modulo 256 into Vx; VF is 1 when minuend ≥ subtrahend, else 0, also when
x = 0xF. Derived: which is the minuend is G6 (meaning: log 18). Pattern: log 17. -/
def Obligations.SubtractSetsNoBorrow : Prop :=
  (∀ x y : Reg, decodeWord (BitVec.ofNat 16 (0x8005 + x.val * 0x100 + y.val * 0x10)) = some (.subVxVy x y) ∧
    decodeWord (BitVec.ofNat 16 (0x8007 + x.val * 0x100 + y.val * 0x10)) = some (.subnVxVy x y)) ∧
  ∀ (x y : Reg) (s : State) (i : Instr) (a b : Byte),
    (i = .subVxVy x y ∧ a = s.getV x ∧ b = s.getV y) ∨ (i = .subnVxVy x y ∧ a = s.getV y ∧ b = s.getV x) →
    ∃ t, exec i s = .next t ∧
      (x ≠ 15 → ((t.getV x).toNat : Int) = ((a.toNat : Int) - (b.toNat : Int)) % 256) ∧
      (a.toNat ≥ b.toNat → t.getV 15 = 1#8) ∧ (a.toNat < b.toNat → t.getV 15 = 0#8) ∧
      (∀ k, k ≠ x → k ≠ 15 → t.getV k = s.getV k) ∧
      t.pc = s.pc + 2#16 ∧ t = { s with v := t.v, pc := t.pc } ∧ s.SameBytes t

/-- SHR and SHL (R168, R170) shift by one the register SHIFT_SRC selects and store into Vx; VF is the bit shifted out, also
when x = 0xF. Pattern: log 17. -/
def Obligations.ShiftByOneSetsBitOut : Prop :=
  (∀ x y : Reg, decodeWord (BitVec.ofNat 16 (0x8006 + x.val * 0x100 + y.val * 0x10)) = some (.shrVxVy x y) ∧
    decodeWord (BitVec.ofNat 16 (0x800E + x.val * 0x100 + y.val * 0x10)) = some (.shlVxVy x y)) ∧
  ∀ (x y : Reg) (s : State) (a : Nat),
    (s.cfg.shiftSrc = .vx ∧ a = (s.getV x).toNat) ∨ (s.cfg.shiftSrc = .vy ∧ a = (s.getV y).toNat) →
    (∃ t, exec (.shrVxVy x y) s = .next t ∧ (x ≠ 15 → (t.getV x).toNat = a / 2) ∧ (t.getV 15).toNat = a % 2 ∧
      (∀ k, k ≠ x → k ≠ 15 → t.getV k = s.getV k) ∧ t.pc = s.pc + 2#16 ∧ t = { s with v := t.v, pc := t.pc } ∧ s.SameBytes t) ∧
    (∃ t, exec (.shlVxVy x y) s = .next t ∧ (x ≠ 15 → (t.getV x).toNat = a * 2 % 256) ∧ (t.getV 15).toNat = a / 128 ∧
      (∀ k, k ≠ x → k ≠ 15 → t.getV k = s.getV k) ∧ t.pc = s.pc + 2#16 ∧ t = { s with v := t.v, pc := t.pc } ∧ s.SameBytes t)

/-! ## Index register and memory (44_memory_index.md) -/

/-- LD I, NNN (R180). Pattern: log 17. -/
def Obligations.LoadIndex : Prop :=
  (∀ nnn : BitVec 12, decodeWord (BitVec.ofNat 16 (0xA000 + nnn.toNat)) = some (.ldINnn nnn)) ∧
  ∀ (nnn : BitVec 12) (s : State), ∃ t, exec (.ldINnn nnn) s = .next t ∧
    t.i.toNat = nnn.toNat ∧ t.pc = s.pc + 2#16 ∧ t = { s with i := t.i, pc := t.pc } ∧ s.SameBytes t

/-- ADD I, Vx (R181) and LD F, Vx (R182). Derived: the wrap modulo 65536 and the unchanged VF are D16 (log 12), the low nibble is
D15 (log 14), FONT_BASE = 0x050 is D6 (log 5). Pattern: log 17. -/
def Obligations.IndexAddsAndFontAddress : Prop :=
  (∀ x : Reg, decodeWord (BitVec.ofNat 16 (0xF01E + x.val * 0x100)) = some (.addIVx x) ∧
    decodeWord (BitVec.ofNat 16 (0xF029 + x.val * 0x100)) = some (.ldFVx x)) ∧
  ∀ (x : Reg) (s : State),
    (∃ t, exec (.addIVx x) s = .next t ∧ t.i.toNat = (s.i.toNat + (s.getV x).toNat) % 65536 ∧ t.pc = s.pc + 2#16 ∧
      t = { s with i := t.i, pc := t.pc } ∧ s.SameBytes t) ∧
    (∃ t, exec (.ldFVx x) s = .next t ∧ t.i.toNat = 0x050 + 5 * ((s.getV x).toNat % 16) ∧ t.pc = s.pc + 2#16 ∧
      t = { s with i := t.i, pc := t.pc } ∧ s.SameBytes t)

/-- LD B, Vx (R183): the three decimal digits at I, I+1, I+2 and no other byte; with I above 0xFFD the core halts unchanged.
Derived: the precise fault and its address are D11 and D12 (log 15, 16). Pattern: log 17. -/
def Obligations.DecimalDigitsStored : Prop :=
  (∀ x : Reg, decodeWord (BitVec.ofNat 16 (0xF033 + x.val * 0x100)) = some (.ldBVx x)) ∧
  ∀ (x : Reg) (s : State),
    (s.i.toNat ≤ 0xFFD → ∃ t, exec (.ldBVx x) s = .next t ∧
      (Memory.read t.mem s.i.toNat).toNat = (s.getV x).toNat / 100 ∧
      (Memory.read t.mem (s.i.toNat + 1)).toNat = (s.getV x).toNat / 10 % 10 ∧
      (Memory.read t.mem (s.i.toNat + 2)).toNat = (s.getV x).toNat % 10 ∧
      (∀ a, a < s.i.toNat ∨ s.i.toNat + 2 < a → Memory.read t.mem a = Memory.read s.mem a) ∧
      t.pc = s.pc + 2#16 ∧ t = { s with mem := t.mem, pc := t.pc }) ∧
    (0xFFD < s.i.toNat →
      exec (.ldBVx x) s = .next { s with exec := .halted (.outOfBoundsMemoryAccess (max s.i.toNat 0x1000)) })

/-- LD [I], Vx (R184): V0 to Vx at I, I+1, ... and no other byte, I more by x + 1 under LOADSTORE_INC_I; with I + x above 0xFFF the
core halts unchanged. Derived: the amount x + 1 is D17 (log 13), the precise fault and its address D11 and D12 (log 15, 16). Pattern:
log 17. -/
def Obligations.RegistersStoredFromIndex : Prop :=
  (∀ x : Reg, decodeWord (BitVec.ofNat 16 (0xF055 + x.val * 0x100)) = some (.ldMemVx x)) ∧
  ∀ (x : Reg) (s : State),
    (s.i.toNat + x.val ≤ 0xFFF → ∃ t, exec (.ldMemVx x) s = .next t ∧
      (∀ k : Reg, k ≤ x → Memory.read t.mem (s.i.toNat + k.val) = s.getV k) ∧
      (∀ a, a < s.i.toNat ∨ s.i.toNat + x.val < a → Memory.read t.mem a = Memory.read s.mem a) ∧
      (s.cfg.loadStoreIncI = false → t.i = s.i) ∧
      (s.cfg.loadStoreIncI = true → t.i.toNat = (s.i.toNat + x.val + 1) % 65536) ∧
      t.pc = s.pc + 2#16 ∧ t = { s with mem := t.mem, i := t.i, pc := t.pc }) ∧
    (0xFFF < s.i.toNat + x.val →
      exec (.ldMemVx x) s = .next { s with exec := .halted (.outOfBoundsMemoryAccess (max s.i.toNat 0x1000)) })

/-- LD Vx, [I] (R185): V0 to Vx from I, I+1, ..., the other registers and memory unchanged, I as in LD [I], Vx. Derived: D17
(log 13), D11 and D12 (log 15, 16). Pattern: log 17. -/
def Obligations.RegistersLoadedFromIndex : Prop :=
  (∀ x : Reg, decodeWord (BitVec.ofNat 16 (0xF065 + x.val * 0x100)) = some (.ldVxMem x)) ∧
  ∀ (x : Reg) (s : State),
    (s.i.toNat + x.val ≤ 0xFFF → ∃ t, exec (.ldVxMem x) s = .next t ∧
      (∀ k : Reg, k ≤ x → t.getV k = Memory.read s.mem (s.i.toNat + k.val)) ∧
      (∀ k : Reg, x < k → t.getV k = s.getV k) ∧
      (s.cfg.loadStoreIncI = false → t.i = s.i) ∧
      (s.cfg.loadStoreIncI = true → t.i.toNat = (s.i.toNat + x.val + 1) % 65536) ∧
      t.pc = s.pc + 2#16 ∧ t = { s with v := t.v, i := t.i, pc := t.pc } ∧ s.SameBytes t) ∧
    (0xFFF < s.i.toNat + x.val →
      exec (.ldVxMem x) s = .next { s with exec := .halted (.outOfBoundsMemoryAccess (max s.i.toNat 0x1000)) })

/-- What LD [I], Vx stored, LD Vx, [I] loads back: with I put back to where the store began, V0 to Vx are again what they were,
whatever the registers held in between (R184, R185). -/
def Obligations.LoadRestoresStoredRegisters : Prop :=
  ∀ (x : Reg) (s t u v : State), s.i.toNat + x.val ≤ 0xFFF → exec (.ldMemVx x) s = .next t → u.mem = t.mem → u.i = s.i →
    exec (.ldVxMem x) u = .next v → ∀ k : Reg, k ≤ x → v.getV k = s.getV k

/-! ## Display (45_display.md) -/

/-- R190, CLS: every pixel false, and nothing else but PC. -/
def Obligations.ClearScreen : Prop :=
  decodeWord 0x00E0#16 = some .cls ∧
  ∀ s : State, ∃ t, exec .cls s = .next t ∧ (∀ x y, Frame.get t.fb x y = false) ∧ t.pc = s.pc + 2#16 ∧
    t = { s with fb := t.fb, pc := t.pc } ∧ s.SameBytes t

/-- DRW Vx, Vy, N (R191 to R196, R198), pixel by pixel: a display pixel is inverted exactly when a 1 bit of the sprite falls on
it, VF is 1 exactly when some pixel went from set to unset, and a range that passes 0xFFF halts the core unchanged. Derived: the
row modulus is D2 (log 4), the precise fault D11 and D12 (log 15, 16), N = 0 is D25 and the bit order G7 (log 26). -/
def Obligations.DrawInvertsPixelsUnderSprite : Prop :=
  (∀ (x y : Reg) (n : Nat), n ≤ 15 →
    decodeWord (BitVec.ofNat 16 (0xD000 + x.val * 0x100 + y.val * 0x10 + n)) = some (.drwVxVyN x y n)) ∧
  ∀ (x y : Reg) (n : Nat) (s : State), n ≤ 15 →
    (n = 0 ∨ s.i.toNat + n - 1 ≤ 0xFFF → ∃ t, exec (.drwVxVyN x y n) s = .next t ∧
      (∀ px py, (s.SpriteHits ((s.getV x).toNat % 64) ((s.getV y).toNat % s.cfg.drawYMod.value) n px py →
          Frame.get t.fb px py = !Frame.get s.fb px py) ∧
        (¬ s.SpriteHits ((s.getV x).toNat % 64) ((s.getV y).toNat % s.cfg.drawYMod.value) n px py →
          Frame.get t.fb px py = Frame.get s.fb px py)) ∧
      ((∃ px py, Frame.get s.fb px py = true ∧ Frame.get t.fb px py = false) → t.getV 15 = 1#8) ∧
      ((∀ px py, Frame.get s.fb px py = true → Frame.get t.fb px py = true) → t.getV 15 = 0#8) ∧
      (∀ k, k ≠ 15 → t.getV k = s.getV k) ∧ t.pc = s.pc + 2#16 ∧
      t = { s with v := t.v, fb := t.fb, pc := t.pc } ∧ s.SameBytes t) ∧
    (0 < n ∧ s.i.toNat + n - 1 > 0xFFF →
      exec (.drwVxVyN x y n) s = .next { s with exec := .halted (.outOfBoundsMemoryAccess (max s.i.toNat 0x1000)) })

/-- The two readings of the start row agree under wrap (R197): with DRAW_Y_MOD 32 and 64, DRW does the same. -/
def Obligations.RowModulusInvisibleUnderWrap : Prop :=
  ∀ (x y : Reg) (n : Nat) (s t u : State), n ≤ 15 → s.cfg.drawEdge = .wrap →
    exec (.drwVxVyN x y n) { s with cfg := { s.cfg with drawYMod := .rows32 } } = .next t →
    exec (.drwVxVyN x y n) { s with cfg := { s.cfg with drawYMod := .rows64 } } = .next u →
    u = { t with cfg := u.cfg }

/-- Drawing the same sprite twice at the same place restores the display (R191, corner cases). Neither coordinate is VF, which
the first draw overwrites. -/
def Obligations.DrawingTwiceRestoresDisplay : Prop :=
  ∀ (x y : Reg) (n : Nat) (s : State), n ≤ 15 → x ≠ 15 → y ≠ 15 → s.i.toNat + n ≤ 0x1000 →
    ∃ t u, exec (.drwVxVyN x y n) s = .next t ∧ exec (.drwVxVyN x y n) t = .next u ∧ u.fb = s.fb

/-! ## Random, timers, key-wait (46_random_timers_keywait.md) -/

/-- RND Vx, NN (R200), for every random byte: the next supplied one, or a free one when none was supplied; one byte is consumed,
also when NN is 0. Derived: that a draw without a supplied byte takes the free value `Config.randomByte` of the draw counter, and
that every draw adds 1 to that counter, is the model's choice on D23 (log 9). -/
def Obligations.RandomByteIsMasked : Prop :=
  (∀ (x : Reg) (nn : Byte), decodeWord (BitVec.ofNat 16 (0xC000 + x.val * 0x100 + nn.toNat)) = some (.rndVxNn x nn)) ∧
  ∀ (x : Reg) (nn r : Byte) (s : State),
    (s.randomIn = [] ∧ r = Config.randomByte s.draws) ∨ (∃ rest, s.randomIn = r :: rest) →
    ∃ t, exec (.rndVxNn x nn) s = .next t ∧
      (∀ j, (t.getV x).getLsbD j = (r.getLsbD j && nn.getLsbD j)) ∧ (∀ k, k ≠ x → t.getV k = s.getV k) ∧
      t.randomIn = s.randomIn.drop 1 ∧ t.draws = s.draws + 1 ∧ t.pc = s.pc + 2#16 ∧
      t = { s with v := t.v, pc := t.pc, randomIn := t.randomIn, draws := t.draws } ∧ s.SameBytes t

/-- LD Vx, DT (R201) copies DT into Vx; LD DT, Vx (R202) and LD ST, Vx (R203) copy Vx into their timer and leave the other; the
sound output follows ST at once. Derived: which pattern is which instruction is G10 (meaning: log 18). -/
def Obligations.TimersReadAndWritten : Prop :=
  (∀ x : Reg, decodeWord (BitVec.ofNat 16 (0xF007 + x.val * 0x100)) = some (.ldVxDt x) ∧
    decodeWord (BitVec.ofNat 16 (0xF015 + x.val * 0x100)) = some (.ldDtVx x) ∧
    decodeWord (BitVec.ofNat 16 (0xF018 + x.val * 0x100)) = some (.ldStVx x)) ∧
  ∀ (x : Reg) (s : State),
    (∃ t, exec (.ldVxDt x) s = .next t ∧ t.getV x = s.dt ∧ (∀ k, k ≠ x → t.getV k = s.getV k) ∧ t.pc = s.pc + 2#16 ∧
      t = { s with v := t.v, pc := t.pc } ∧ s.SameBytes t) ∧
    (∃ t, exec (.ldDtVx x) s = .next t ∧ t.dt = s.getV x ∧ t.pc = s.pc + 2#16 ∧
      t = { s with dt := t.dt, pc := t.pc } ∧ s.SameBytes t) ∧
    (∃ t, exec (.ldStVx x) s = .next t ∧ t.st = s.getV x ∧ (t.soundActive = true ↔ (s.getV x).toNat > 0) ∧
      t.pc = s.pc + 2#16 ∧ t = { s with st := t.st, pc := t.pc } ∧ s.SameBytes t)

/-- LD Vx, K, the entry (R204). Derived: the snapshot taken at entry, and that the entry does not poll, are D13 (log 11); that the
status of a waiting core is `waiting` is D27 (R117, log 23). -/
def Obligations.KeyWaitEntry : Prop :=
  (∀ x : Reg, decodeWord (BitVec.ofNat 16 (0xF00A + x.val * 0x100)) = some (.ldVxK x)) ∧
  ∀ (x : Reg) (s : State), ∃ t, exec (.ldVxK x) s = .next t ∧
    t.exec = .waitingForKey x ∧ t.status = .waiting ∧ (∀ k, t.keyWasDown k = s.keyDown k) ∧
    t = { s with kprev := t.kprev, exec := t.exec } ∧ s.SameBytes t

/-- LD Vx, K, the poll (R204): without a newly pressed key only the snapshot is refreshed; with one, the least goes into Vx and
the core runs on at PC + 2. Derived: D13 (log 11). -/
def Obligations.KeyWaitPoll : Prop :=
  ∀ (x : Reg) (s : State), s.exec = .waitingForKey x → ∃ t, step s = .next t ∧
    (∀ k, t.keyWasDown k = s.keyDown k) ∧
    ((∀ k, ¬ s.NewlyPressed k) → t = { s with kprev := t.kprev }) ∧
    (∀ k, s.NewlyPressed k → (∀ j, j < k → ¬ s.NewlyPressed j) →
      (t.getV x).toNat = k.val ∧ (∀ m, m ≠ x → t.getV m = s.getV m) ∧ t.exec = .running ∧ t.pc = s.pc + 2#16 ∧
      t = { s with v := t.v, pc := t.pc, exec := t.exec, kprev := t.kprev }) ∧ s.SameBytes t

/-- A wait ends at the press (R204's example, R205): with no key down, any n ≥ 1 polls leave PC and the wait as they are, and
after `set_key(k, true)` the next step stores k, runs on and advances PC by 2. -/
def Obligations.KeyWaitEndsAtPress : Prop :=
  ∀ (x : Reg) (k : Key) (n : Nat) (s : State), s.exec = .waitingForKey x → (∀ j, s.keyDown j = false) → 1 ≤ n →
    (afterOps s (List.replicate n .step)).exec = .waitingForKey x ∧ (afterOps s (List.replicate n .step)).pc = s.pc ∧
    ∃ t, t = afterOps s (List.replicate n .step ++ [.setKey k.val true, .step]) ∧
      (t.getV x).toNat = k.val ∧ t.exec = .running ∧ t.pc = s.pc + 2#16

/-! ## The driver's operations (40_step_cycle.md) -/

/-- `tick_timers` (R118): a tick lowers each timer by one, floored at 0, and changes nothing else; N ticks lower a timer that held
T by min(N, T), whatever other operations come between them, as long as no reset does and no step executes LD DT or LD ST.
Derived: that a tick does so in every state of EXEC, waiting and halted too, is D18 (log 22). -/
def Obligations.TicksLowerTimersToZero : Prop :=
  (∀ s : State, ∃ t, perform .tickTimers s = .next t ∧ t.dt.toNat = s.dt.toNat - 1 ∧ t.st.toNat = s.st.toNat - 1 ∧
    t = { s with dt := t.dt, st := t.st }) ∧
  ∀ (ops : List Op) (s : State), (∀ cfg, Op.reset cfg ∉ ops) →
    (∀ before after, ops = before ++ .step :: after → (afterOps s before).exec = .running →
      ∀ x, (afterOps s before).fetchDecode ≠ .ok (.ldDtVx x) ∧ (afterOps s before).fetchDecode ≠ .ok (.ldStVx x)) →
    (afterOps s ops).dt.toNat = s.dt.toNat - min (ops.count .tickTimers) s.dt.toNat ∧
    (afterOps s ops).st.toNat = s.st.toNat - min (ops.count .tickTimers) s.st.toNat

/-- `set_key` (R120) writes one flag and nothing else, in every state; an index above 15 is reported and changes nothing.
Derived: that it acts the same in every state of EXEC is D18 (log 22). -/
def Obligations.SetKeyWritesOneFlag : Prop :=
  ∀ (index : Nat) (pressed : Bool) (s : State),
    (∀ k : Key, k.val = index → ∃ t, perform (.setKey index pressed) s = .next t ∧ t.keyDown k = pressed ∧
      (∀ j, j ≠ k → t.keyDown j = s.keyDown j) ∧ t = { s with key := t.key }) ∧
    (15 < index → perform (.setKey index pressed) s = .fault (.invalidKeyIndex index) ∧
      afterOp s (.setKey index pressed) = s)

/-- `load` (R121) puts the bytes at 0x200 and changes nothing else; more than 3584 bytes are reported and nothing changes.
Derived: that it is allowed in every state is D19 (log 22). -/
def Obligations.LoadWritesProgramOnly : Prop :=
  ∀ (bytes : List Byte) (s : State),
    (bytes.length ≤ 3584 → ∃ t, perform (.load bytes) s = .next t ∧
      (∀ k, k < bytes.length → bytes[k]? = some (Memory.read t.mem (0x200 + k))) ∧
      (∀ a, a < 0x200 ∨ 0x200 + bytes.length ≤ a → Memory.read t.mem a = Memory.read s.mem a) ∧
      t = { s with mem := t.mem }) ∧
    (3584 < bytes.length → perform (.load bytes) s = .fault .romTooLarge ∧ afterOp s (.load bytes) = s)
end

