-- ==== Sys2Proof/Laws/Decode.lean ====
section
/-! SUPPORT. The fields of the formats, and the fields that a mask fixes. -/

namespace Sys2Proof

/-! ### The fields of each format (30_encoding.md R82) -/

@[simp] theorem opField_formatXNN (op : BitVec 4) (x : Reg) (nn : Byte) : opField (formatXNN op x nn) = op := by
  apply BitVec.eq_of_getLsbD_eq
  intro i hi
  simp only [opField, formatXNN, BitVec.getLsbD_extractLsb', BitVec.getLsbD_append, regBits]
  have h1 : ¬ (12 + i < 8) := by omega
  have h2 : ¬ (12 + i - 8 < 4) := by omega
  have h3 : 12 + i - 8 - 4 = i := by omega
  simp [hi, h1, h2, h3]

@[simp] theorem xField_formatXNN (op : BitVec 4) (x : Reg) (nn : Byte) : xField (formatXNN op x nn) = x := by
  have h : (formatXNN op x nn).extractLsb' 8 4 = regBits x := by
    apply BitVec.eq_of_getLsbD_eq
    intro i hi
    simp only [formatXNN, BitVec.getLsbD_extractLsb', BitVec.getLsbD_append]
    have h1 : ¬ (8 + i < 8) := by omega
    have h2 : 8 + i - 8 = i := by omega
    simp [hi, h1, h2]
  unfold xField; rw [h]; rfl

@[simp] theorem nnField_formatXNN (op : BitVec 4) (x : Reg) (nn : Byte) : nnField (formatXNN op x nn) = nn := by
  apply BitVec.eq_of_getLsbD_eq
  intro i hi
  simp only [nnField, formatXNN, BitVec.getLsbD_extractLsb', BitVec.getLsbD_append]
  simp [hi]

@[simp] theorem opField_formatXYN (op : BitVec 4) (x y : Reg) (n : BitVec 4) : opField (formatXYN op x y n) = op := by
  apply BitVec.eq_of_getLsbD_eq
  intro i hi
  simp only [opField, formatXYN, BitVec.getLsbD_extractLsb', BitVec.getLsbD_append]
  have h1 : ¬ (12 + i < 4) := by omega
  have h2 : ¬ (12 + i - 4 < 4) := by omega
  have h3 : ¬ (12 + i - 4 - 4 < 4) := by omega
  have h4 : 12 + i - 4 - 4 - 4 = i := by omega
  simp [hi, h1, h2, h3, h4]

@[simp] theorem xField_formatXYN (op : BitVec 4) (x y : Reg) (n : BitVec 4) : xField (formatXYN op x y n) = x := by
  have h : (formatXYN op x y n).extractLsb' 8 4 = regBits x := by
    apply BitVec.eq_of_getLsbD_eq
    intro i hi
    simp only [formatXYN, BitVec.getLsbD_extractLsb', BitVec.getLsbD_append]
    have h1 : ¬ (8 + i < 4) := by omega
    have h2 : ¬ (8 + i - 4 < 4) := by omega
    have h3 : 8 + i - 4 - 4 = i := by omega
    simp [hi, h1, h2, h3]
  unfold xField; rw [h]; rfl

@[simp] theorem yField_formatXYN (op : BitVec 4) (x y : Reg) (n : BitVec 4) : yField (formatXYN op x y n) = y := by
  have h : (formatXYN op x y n).extractLsb' 4 4 = regBits y := by
    apply BitVec.eq_of_getLsbD_eq
    intro i hi
    simp only [formatXYN, BitVec.getLsbD_extractLsb', BitVec.getLsbD_append]
    have h1 : ¬ (4 + i < 4) := by omega
    have h2 : 4 + i - 4 = i := by omega
    simp [hi, h1, h2]
  unfold yField; rw [h]; rfl

@[simp] theorem nField_formatXYN (op : BitVec 4) (x y : Reg) (n : BitVec 4) : nField (formatXYN op x y n) = n := by
  apply BitVec.eq_of_getLsbD_eq
  intro i hi
  simp only [nField, formatXYN, BitVec.getLsbD_extractLsb', BitVec.getLsbD_append]
  simp [hi]

@[simp] theorem opField_formatNNN (op : BitVec 4) (nnn : BitVec 12) : opField (formatNNN op nnn) = op := by
  apply BitVec.eq_of_getLsbD_eq
  intro i hi
  simp only [opField, formatNNN, BitVec.getLsbD_extractLsb', BitVec.getLsbD_append]
  have h1 : ¬ (12 + i < 12) := by omega
  have h2 : 12 + i - 12 = i := by omega
  simp [hi, h1, h2]

@[simp] theorem nnnField_formatNNN (op : BitVec 4) (nnn : BitVec 12) : nnnField (formatNNN op nnn) = nnn := by
  apply BitVec.eq_of_getLsbD_eq
  intro i hi
  simp only [nnnField, formatNNN, BitVec.getLsbD_extractLsb', BitVec.getLsbD_append]
  simp [hi]

/-- A big-endian pair of bytes spells back the word it was cut from (20_memory.md R54). -/
@[simp] theorem wordOfBytes_bytesOfWord (w : Word) : wordOfBytes (bytesOfWord w).1 (bytesOfWord w).2 = w := by
  apply BitVec.eq_of_getLsbD_eq
  intro i hi
  simp only [wordOfBytes, bytesOfWord, BitVec.getLsbD_append, BitVec.getLsbD_extractLsb']
  by_cases h : i < 8
  · simp [h]
  · have h1 : i - 8 < 8 := by omega
    have h2 : 8 + (i - 8) = i := by omega
    simp [h, h1, h2]

/-! ### The formats as numbers -/

theorem toNat_append_eq {m n : Nat} (a : BitVec m) (b : BitVec n) : (a ++ b).toNat = a.toNat * 2 ^ n + b.toNat := by
  rw [BitVec.toNat_append, Nat.shiftLeft_eq, Nat.mul_comm (a.toNat), ← Nat.two_pow_add_eq_or_of_lt b.isLt]

theorem toNat_regBits (x : Reg) : (regBits x).toNat = x.val := rfl

theorem formatNNN_eq (op : BitVec 4) (nnn : BitVec 12) :
    formatNNN op nnn = BitVec.ofNat 16 (op.toNat * 0x1000 + nnn.toNat) := by
  apply BitVec.eq_of_toNat_eq
  have h1 := op.isLt
  have h2 := nnn.isLt
  rw [formatNNN, toNat_append_eq, BitVec.toNat_ofNat]
  omega

theorem formatXNN_eq (op : BitVec 4) (x : Reg) (nn : Byte) :
    formatXNN op x nn = BitVec.ofNat 16 (op.toNat * 0x1000 + x.val * 0x100 + nn.toNat) := by
  apply BitVec.eq_of_toNat_eq
  have h1 := op.isLt
  have h2 := x.isLt
  have h3 := nn.isLt
  rw [formatXNN, toNat_append_eq, toNat_append_eq, BitVec.toNat_ofNat, toNat_regBits]
  omega

theorem formatXYN_eq (op : BitVec 4) (x y : Reg) (n : BitVec 4) :
    formatXYN op x y n = BitVec.ofNat 16 (op.toNat * 0x1000 + x.val * 0x100 + y.val * 0x10 + n.toNat) := by
  apply BitVec.eq_of_toNat_eq
  have h1 := op.isLt
  have h2 := x.isLt
  have h3 := y.isLt
  have h4 := n.isLt
  rw [formatXYN, toNat_append_eq, toNat_append_eq, toNat_append_eq, BitVec.toNat_ofNat, toNat_regBits,
    toNat_regBits]
  omega

/-! ### The fields as numbers (R81), and a word from its fields -/

theorem toNat_opField (w : Word) : (opField w).toNat = w.toNat / 0x1000 := by
  have := w.isLt
  simp [opField, BitVec.extractLsb'_toNat, Nat.shiftRight_eq_div_pow]
  omega

theorem val_xField (w : Word) : (xField w).val = w.toNat / 256 % 16 := by
  simp [xField, Nat.shiftRight_eq_div_pow]

theorem val_yField (w : Word) : (yField w).val = w.toNat / 16 % 16 := by
  simp [yField, Nat.shiftRight_eq_div_pow]

theorem toNat_nField (w : Word) : (nField w).toNat = w.toNat % 16 := by
  simp [nField, BitVec.extractLsb'_toNat]

theorem toNat_nnField (w : Word) : (nnField w).toNat = w.toNat % 256 := by
  simp [nnField, BitVec.extractLsb'_toNat]

theorem toNat_nnnField (w : Word) : (nnnField w).toNat = w.toNat % 4096 := by
  simp [nnnField, BitVec.extractLsb'_toNat]

theorem formatNNN_fields {w : Word} {op : BitVec 4} (h : opField w = op) : formatNNN op (nnnField w) = w := by
  apply BitVec.eq_of_toNat_eq
  have := w.isLt
  rw [formatNNN_eq, ← h, toNat_opField, toNat_nnnField, BitVec.toNat_ofNat]
  omega

theorem formatXNN_fields {w : Word} {op : BitVec 4} {nn : Byte} (h : opField w = op) (h' : nnField w = nn) :
    formatXNN op (xField w) nn = w := by
  apply BitVec.eq_of_toNat_eq
  have := w.isLt
  rw [formatXNN_eq, ← h, ← h', toNat_opField, val_xField, toNat_nnField, BitVec.toNat_ofNat]
  omega

theorem formatXYN_fields {w : Word} {op n : BitVec 4} (h : opField w = op) (h' : nField w = n) :
    formatXYN op (xField w) (yField w) n = w := by
  apply BitVec.eq_of_toNat_eq
  have := w.isLt
  rw [formatXYN_eq, ← h, ← h', toNat_opField, val_xField, val_yField, toNat_nField, BitVec.toNat_ofNat]
  omega

/-! ### The fields that a mask fixes (R90) -/

theorem opField_and (w m : Word) : opField (w &&& m) = opField w &&& opField m := by
  apply BitVec.eq_of_getLsbD_eq
  intro i hi
  simp [opField, hi]

theorem nField_and (w m : Word) : nField (w &&& m) = nField w &&& nField m := by
  apply BitVec.eq_of_getLsbD_eq
  intro i hi
  simp [nField, hi]

theorem nnField_and (w m : Word) : nnField (w &&& m) = nnField w &&& nnField m := by
  apply BitVec.eq_of_getLsbD_eq
  intro i hi
  simp [nnField, hi]

theorem opField_of_mask {w m k : Word} (hm : opField m = 0xF#4) (h : w &&& m = k) : opField w = opField k := by
  rw [← h, opField_and, hm]; exact (BitVec.and_allOnes (x := opField w)).symm

theorem nField_of_mask {w m k : Word} (hm : nField m = 0xF#4) (h : w &&& m = k) : nField w = nField k := by
  rw [← h, nField_and, hm]; exact (BitVec.and_allOnes (x := nField w)).symm

theorem nnField_of_mask {w m k : Word} (hm : nnField m = 0xFF#8) (h : w &&& m = k) : nnField w = nnField k := by
  rw [← h, nnField_and, hm]; exact (BitVec.and_allOnes (x := nnField w)).symm

/-- The decoder on bytes reads the word of the first two. -/
theorem decode_bytesOfWord (w : Word) (rest : List Byte) :
    decode ((bytesOfWord w).1 :: (bytesOfWord w).2 :: rest) =
      match decodeWord w with
      | some i => .ok (i, rest)
      | none => .error (.invalidWord w) := by
  cases h : decodeWord w <;> simp [decode, h]

theorem decodeTableWord_eq (nbits w : Nat) : decodeTableWord nbits w = decodeWord (BitVec.ofNat 16 w) := by
  unfold decodeTableWord
  rw [decode_bytesOfWord]
  cases decodeWord (BitVec.ofNat 16 w) <;> rfl

end Sys2Proof
end

