-- ==== Sys2Proof/Laws/State.lean ====
section
/-! SUPPORT. One lemma per field per update of the state, and the readers over the updates: true by rfl, for simp. -/

namespace Sys2Proof.Machine

/-! ### `State.setV` -/

@[simp] theorem State.setV_cfg (s : State) (x : Reg) (b : Byte) : (s.setV x b).cfg = s.cfg := rfl
theorem State.setV_v (s : State) (x : Reg) (b : Byte) : (s.setV x b).v = s.v.set x.val b x.isLt := rfl
@[simp] theorem State.setV_i (s : State) (x : Reg) (b : Byte) : (s.setV x b).i = s.i := rfl
@[simp] theorem State.setV_pc (s : State) (x : Reg) (b : Byte) : (s.setV x b).pc = s.pc := rfl
@[simp] theorem State.setV_stack (s : State) (x : Reg) (b : Byte) : (s.setV x b).stack = s.stack := rfl
@[simp] theorem State.setV_dt (s : State) (x : Reg) (b : Byte) : (s.setV x b).dt = s.dt := rfl
@[simp] theorem State.setV_st (s : State) (x : Reg) (b : Byte) : (s.setV x b).st = s.st := rfl
@[simp] theorem State.setV_fb (s : State) (x : Reg) (b : Byte) : (s.setV x b).fb = s.fb := rfl
@[simp] theorem State.setV_key (s : State) (x : Reg) (b : Byte) : (s.setV x b).key = s.key := rfl
@[simp] theorem State.setV_exec (s : State) (x : Reg) (b : Byte) : (s.setV x b).exec = s.exec := rfl
@[simp] theorem State.setV_kprev (s : State) (x : Reg) (b : Byte) : (s.setV x b).kprev = s.kprev := rfl
@[simp] theorem State.setV_mem (s : State) (x : Reg) (b : Byte) : (s.setV x b).mem = s.mem := rfl
@[simp] theorem State.setV_randomIn (s : State) (x : Reg) (b : Byte) : (s.setV x b).randomIn = s.randomIn := rfl
@[simp] theorem State.setV_draws (s : State) (x : Reg) (b : Byte) : (s.setV x b).draws = s.draws := rfl

/-! ### `State.setVRange` -/

@[simp] theorem State.setVRange_cfg (s : State) (l : List Byte) : (s.setVRange l).cfg = s.cfg := by simp only [State.setVRange]
theorem State.setVRange_v (s : State) (l : List Byte) : (s.setVRange l).v = Vector.ofFn fun k : Reg => l.getD k.val (s.getV k) := rfl
@[simp] theorem State.setVRange_i (s : State) (l : List Byte) : (s.setVRange l).i = s.i := by simp only [State.setVRange]
@[simp] theorem State.setVRange_pc (s : State) (l : List Byte) : (s.setVRange l).pc = s.pc := by simp only [State.setVRange]
@[simp] theorem State.setVRange_stack (s : State) (l : List Byte) : (s.setVRange l).stack = s.stack := by simp only [State.setVRange]
@[simp] theorem State.setVRange_dt (s : State) (l : List Byte) : (s.setVRange l).dt = s.dt := by simp only [State.setVRange]
@[simp] theorem State.setVRange_st (s : State) (l : List Byte) : (s.setVRange l).st = s.st := by simp only [State.setVRange]
@[simp] theorem State.setVRange_fb (s : State) (l : List Byte) : (s.setVRange l).fb = s.fb := by simp only [State.setVRange]
@[simp] theorem State.setVRange_key (s : State) (l : List Byte) : (s.setVRange l).key = s.key := by simp only [State.setVRange]
@[simp] theorem State.setVRange_exec (s : State) (l : List Byte) : (s.setVRange l).exec = s.exec := by simp only [State.setVRange]
@[simp] theorem State.setVRange_kprev (s : State) (l : List Byte) : (s.setVRange l).kprev = s.kprev := by simp only [State.setVRange]
@[simp] theorem State.setVRange_mem (s : State) (l : List Byte) : (s.setVRange l).mem = s.mem := by simp only [State.setVRange]
@[simp] theorem State.setVRange_randomIn (s : State) (l : List Byte) : (s.setVRange l).randomIn = s.randomIn := by simp only [State.setVRange]
@[simp] theorem State.setVRange_draws (s : State) (l : List Byte) : (s.setVRange l).draws = s.draws := by simp only [State.setVRange]

/-! ### `State.setI` -/

@[simp] theorem State.setI_cfg (s : State) (a : Word) : (s.setI a).cfg = s.cfg := rfl
@[simp] theorem State.setI_v (s : State) (a : Word) : (s.setI a).v = s.v := rfl
@[simp] theorem State.setI_i (s : State) (a : Word) : (s.setI a).i = a := rfl
@[simp] theorem State.setI_pc (s : State) (a : Word) : (s.setI a).pc = s.pc := rfl
@[simp] theorem State.setI_stack (s : State) (a : Word) : (s.setI a).stack = s.stack := rfl
@[simp] theorem State.setI_dt (s : State) (a : Word) : (s.setI a).dt = s.dt := rfl
@[simp] theorem State.setI_st (s : State) (a : Word) : (s.setI a).st = s.st := rfl
@[simp] theorem State.setI_fb (s : State) (a : Word) : (s.setI a).fb = s.fb := rfl
@[simp] theorem State.setI_key (s : State) (a : Word) : (s.setI a).key = s.key := rfl
@[simp] theorem State.setI_exec (s : State) (a : Word) : (s.setI a).exec = s.exec := rfl
@[simp] theorem State.setI_kprev (s : State) (a : Word) : (s.setI a).kprev = s.kprev := rfl
@[simp] theorem State.setI_mem (s : State) (a : Word) : (s.setI a).mem = s.mem := rfl
@[simp] theorem State.setI_randomIn (s : State) (a : Word) : (s.setI a).randomIn = s.randomIn := rfl
@[simp] theorem State.setI_draws (s : State) (a : Word) : (s.setI a).draws = s.draws := rfl
@[simp] theorem State.setI_getV (s : State) (a : Word) (k : Reg) : (s.setI a).getV k = s.getV k := rfl

/-! ### `State.setPc` -/

@[simp] theorem State.setPc_cfg (s : State) (a : Word) : (s.setPc a).cfg = s.cfg := rfl
@[simp] theorem State.setPc_v (s : State) (a : Word) : (s.setPc a).v = s.v := rfl
@[simp] theorem State.setPc_i (s : State) (a : Word) : (s.setPc a).i = s.i := rfl
@[simp] theorem State.setPc_pc (s : State) (a : Word) : (s.setPc a).pc = a := rfl
@[simp] theorem State.setPc_stack (s : State) (a : Word) : (s.setPc a).stack = s.stack := rfl
@[simp] theorem State.setPc_dt (s : State) (a : Word) : (s.setPc a).dt = s.dt := rfl
@[simp] theorem State.setPc_st (s : State) (a : Word) : (s.setPc a).st = s.st := rfl
@[simp] theorem State.setPc_fb (s : State) (a : Word) : (s.setPc a).fb = s.fb := rfl
@[simp] theorem State.setPc_key (s : State) (a : Word) : (s.setPc a).key = s.key := rfl
@[simp] theorem State.setPc_exec (s : State) (a : Word) : (s.setPc a).exec = s.exec := rfl
@[simp] theorem State.setPc_kprev (s : State) (a : Word) : (s.setPc a).kprev = s.kprev := rfl
@[simp] theorem State.setPc_mem (s : State) (a : Word) : (s.setPc a).mem = s.mem := rfl
@[simp] theorem State.setPc_randomIn (s : State) (a : Word) : (s.setPc a).randomIn = s.randomIn := rfl
@[simp] theorem State.setPc_draws (s : State) (a : Word) : (s.setPc a).draws = s.draws := rfl
@[simp] theorem State.setPc_getV (s : State) (a : Word) (k : Reg) : (s.setPc a).getV k = s.getV k := rfl

/-! ### `State.advance` -/

@[simp] theorem State.advance_cfg (s : State) : (s.advance).cfg = s.cfg := rfl
@[simp] theorem State.advance_v (s : State) : (s.advance).v = s.v := rfl
@[simp] theorem State.advance_i (s : State) : (s.advance).i = s.i := rfl
@[simp] theorem State.advance_pc (s : State) : (s.advance).pc = s.pc + 2#16 := rfl
@[simp] theorem State.advance_stack (s : State) : (s.advance).stack = s.stack := rfl
@[simp] theorem State.advance_dt (s : State) : (s.advance).dt = s.dt := rfl
@[simp] theorem State.advance_st (s : State) : (s.advance).st = s.st := rfl
@[simp] theorem State.advance_fb (s : State) : (s.advance).fb = s.fb := rfl
@[simp] theorem State.advance_key (s : State) : (s.advance).key = s.key := rfl
@[simp] theorem State.advance_exec (s : State) : (s.advance).exec = s.exec := rfl
@[simp] theorem State.advance_kprev (s : State) : (s.advance).kprev = s.kprev := rfl
@[simp] theorem State.advance_mem (s : State) : (s.advance).mem = s.mem := rfl
@[simp] theorem State.advance_randomIn (s : State) : (s.advance).randomIn = s.randomIn := rfl
@[simp] theorem State.advance_draws (s : State) : (s.advance).draws = s.draws := rfl
@[simp] theorem State.advance_getV (s : State) (k : Reg) : (s.advance).getV k = s.getV k := rfl

/-! ### `State.setDt` -/

@[simp] theorem State.setDt_cfg (s : State) (b : Byte) : (s.setDt b).cfg = s.cfg := rfl
@[simp] theorem State.setDt_v (s : State) (b : Byte) : (s.setDt b).v = s.v := rfl
@[simp] theorem State.setDt_i (s : State) (b : Byte) : (s.setDt b).i = s.i := rfl
@[simp] theorem State.setDt_pc (s : State) (b : Byte) : (s.setDt b).pc = s.pc := rfl
@[simp] theorem State.setDt_stack (s : State) (b : Byte) : (s.setDt b).stack = s.stack := rfl
@[simp] theorem State.setDt_dt (s : State) (b : Byte) : (s.setDt b).dt = b := rfl
@[simp] theorem State.setDt_st (s : State) (b : Byte) : (s.setDt b).st = s.st := rfl
@[simp] theorem State.setDt_fb (s : State) (b : Byte) : (s.setDt b).fb = s.fb := rfl
@[simp] theorem State.setDt_key (s : State) (b : Byte) : (s.setDt b).key = s.key := rfl
@[simp] theorem State.setDt_exec (s : State) (b : Byte) : (s.setDt b).exec = s.exec := rfl
@[simp] theorem State.setDt_kprev (s : State) (b : Byte) : (s.setDt b).kprev = s.kprev := rfl
@[simp] theorem State.setDt_mem (s : State) (b : Byte) : (s.setDt b).mem = s.mem := rfl
@[simp] theorem State.setDt_randomIn (s : State) (b : Byte) : (s.setDt b).randomIn = s.randomIn := rfl
@[simp] theorem State.setDt_draws (s : State) (b : Byte) : (s.setDt b).draws = s.draws := rfl
@[simp] theorem State.setDt_getV (s : State) (b : Byte) (k : Reg) : (s.setDt b).getV k = s.getV k := rfl

/-! ### `State.setSt` -/

@[simp] theorem State.setSt_cfg (s : State) (b : Byte) : (s.setSt b).cfg = s.cfg := rfl
@[simp] theorem State.setSt_v (s : State) (b : Byte) : (s.setSt b).v = s.v := rfl
@[simp] theorem State.setSt_i (s : State) (b : Byte) : (s.setSt b).i = s.i := rfl
@[simp] theorem State.setSt_pc (s : State) (b : Byte) : (s.setSt b).pc = s.pc := rfl
@[simp] theorem State.setSt_stack (s : State) (b : Byte) : (s.setSt b).stack = s.stack := rfl
@[simp] theorem State.setSt_dt (s : State) (b : Byte) : (s.setSt b).dt = s.dt := rfl
@[simp] theorem State.setSt_st (s : State) (b : Byte) : (s.setSt b).st = b := rfl
@[simp] theorem State.setSt_fb (s : State) (b : Byte) : (s.setSt b).fb = s.fb := rfl
@[simp] theorem State.setSt_key (s : State) (b : Byte) : (s.setSt b).key = s.key := rfl
@[simp] theorem State.setSt_exec (s : State) (b : Byte) : (s.setSt b).exec = s.exec := rfl
@[simp] theorem State.setSt_kprev (s : State) (b : Byte) : (s.setSt b).kprev = s.kprev := rfl
@[simp] theorem State.setSt_mem (s : State) (b : Byte) : (s.setSt b).mem = s.mem := rfl
@[simp] theorem State.setSt_randomIn (s : State) (b : Byte) : (s.setSt b).randomIn = s.randomIn := rfl
@[simp] theorem State.setSt_draws (s : State) (b : Byte) : (s.setSt b).draws = s.draws := rfl
@[simp] theorem State.setSt_getV (s : State) (b : Byte) (k : Reg) : (s.setSt b).getV k = s.getV k := rfl

/-! ### `State.setFb` -/

@[simp] theorem State.setFb_cfg (s : State) (f : Frame) : (s.setFb f).cfg = s.cfg := rfl
@[simp] theorem State.setFb_v (s : State) (f : Frame) : (s.setFb f).v = s.v := rfl
@[simp] theorem State.setFb_i (s : State) (f : Frame) : (s.setFb f).i = s.i := rfl
@[simp] theorem State.setFb_pc (s : State) (f : Frame) : (s.setFb f).pc = s.pc := rfl
@[simp] theorem State.setFb_stack (s : State) (f : Frame) : (s.setFb f).stack = s.stack := rfl
@[simp] theorem State.setFb_dt (s : State) (f : Frame) : (s.setFb f).dt = s.dt := rfl
@[simp] theorem State.setFb_st (s : State) (f : Frame) : (s.setFb f).st = s.st := rfl
@[simp] theorem State.setFb_fb (s : State) (f : Frame) : (s.setFb f).fb = f := rfl
@[simp] theorem State.setFb_key (s : State) (f : Frame) : (s.setFb f).key = s.key := rfl
@[simp] theorem State.setFb_exec (s : State) (f : Frame) : (s.setFb f).exec = s.exec := rfl
@[simp] theorem State.setFb_kprev (s : State) (f : Frame) : (s.setFb f).kprev = s.kprev := rfl
@[simp] theorem State.setFb_mem (s : State) (f : Frame) : (s.setFb f).mem = s.mem := rfl
@[simp] theorem State.setFb_randomIn (s : State) (f : Frame) : (s.setFb f).randomIn = s.randomIn := rfl
@[simp] theorem State.setFb_draws (s : State) (f : Frame) : (s.setFb f).draws = s.draws := rfl
@[simp] theorem State.setFb_getV (s : State) (f : Frame) (k : Reg) : (s.setFb f).getV k = s.getV k := rfl

/-! ### `State.setMem` -/

@[simp] theorem State.setMem_cfg (s : State) (m : Memory) : (s.setMem m).cfg = s.cfg := rfl
@[simp] theorem State.setMem_v (s : State) (m : Memory) : (s.setMem m).v = s.v := rfl
@[simp] theorem State.setMem_i (s : State) (m : Memory) : (s.setMem m).i = s.i := rfl
@[simp] theorem State.setMem_pc (s : State) (m : Memory) : (s.setMem m).pc = s.pc := rfl
@[simp] theorem State.setMem_stack (s : State) (m : Memory) : (s.setMem m).stack = s.stack := rfl
@[simp] theorem State.setMem_dt (s : State) (m : Memory) : (s.setMem m).dt = s.dt := rfl
@[simp] theorem State.setMem_st (s : State) (m : Memory) : (s.setMem m).st = s.st := rfl
@[simp] theorem State.setMem_fb (s : State) (m : Memory) : (s.setMem m).fb = s.fb := rfl
@[simp] theorem State.setMem_key (s : State) (m : Memory) : (s.setMem m).key = s.key := rfl
@[simp] theorem State.setMem_exec (s : State) (m : Memory) : (s.setMem m).exec = s.exec := rfl
@[simp] theorem State.setMem_kprev (s : State) (m : Memory) : (s.setMem m).kprev = s.kprev := rfl
@[simp] theorem State.setMem_mem (s : State) (m : Memory) : (s.setMem m).mem = m := rfl
@[simp] theorem State.setMem_randomIn (s : State) (m : Memory) : (s.setMem m).randomIn = s.randomIn := rfl
@[simp] theorem State.setMem_draws (s : State) (m : Memory) : (s.setMem m).draws = s.draws := rfl
@[simp] theorem State.setMem_getV (s : State) (m : Memory) (k : Reg) : (s.setMem m).getV k = s.getV k := rfl

/-! ### `State.setStack` -/

@[simp] theorem State.setStack_cfg (s : State) (l : List Word) : (s.setStack l).cfg = s.cfg := rfl
@[simp] theorem State.setStack_v (s : State) (l : List Word) : (s.setStack l).v = s.v := rfl
@[simp] theorem State.setStack_i (s : State) (l : List Word) : (s.setStack l).i = s.i := rfl
@[simp] theorem State.setStack_pc (s : State) (l : List Word) : (s.setStack l).pc = s.pc := rfl
@[simp] theorem State.setStack_stack (s : State) (l : List Word) : (s.setStack l).stack = l := rfl
@[simp] theorem State.setStack_dt (s : State) (l : List Word) : (s.setStack l).dt = s.dt := rfl
@[simp] theorem State.setStack_st (s : State) (l : List Word) : (s.setStack l).st = s.st := rfl
@[simp] theorem State.setStack_fb (s : State) (l : List Word) : (s.setStack l).fb = s.fb := rfl
@[simp] theorem State.setStack_key (s : State) (l : List Word) : (s.setStack l).key = s.key := rfl
@[simp] theorem State.setStack_exec (s : State) (l : List Word) : (s.setStack l).exec = s.exec := rfl
@[simp] theorem State.setStack_kprev (s : State) (l : List Word) : (s.setStack l).kprev = s.kprev := rfl
@[simp] theorem State.setStack_mem (s : State) (l : List Word) : (s.setStack l).mem = s.mem := rfl
@[simp] theorem State.setStack_randomIn (s : State) (l : List Word) : (s.setStack l).randomIn = s.randomIn := rfl
@[simp] theorem State.setStack_draws (s : State) (l : List Word) : (s.setStack l).draws = s.draws := rfl
@[simp] theorem State.setStack_getV (s : State) (l : List Word) (k : Reg) : (s.setStack l).getV k = s.getV k := rfl

/-! ### `State.setExec` -/

@[simp] theorem State.setExec_cfg (s : State) (e : Exec) : (s.setExec e).cfg = s.cfg := rfl
@[simp] theorem State.setExec_v (s : State) (e : Exec) : (s.setExec e).v = s.v := rfl
@[simp] theorem State.setExec_i (s : State) (e : Exec) : (s.setExec e).i = s.i := rfl
@[simp] theorem State.setExec_pc (s : State) (e : Exec) : (s.setExec e).pc = s.pc := rfl
@[simp] theorem State.setExec_stack (s : State) (e : Exec) : (s.setExec e).stack = s.stack := rfl
@[simp] theorem State.setExec_dt (s : State) (e : Exec) : (s.setExec e).dt = s.dt := rfl
@[simp] theorem State.setExec_st (s : State) (e : Exec) : (s.setExec e).st = s.st := rfl
@[simp] theorem State.setExec_fb (s : State) (e : Exec) : (s.setExec e).fb = s.fb := rfl
@[simp] theorem State.setExec_key (s : State) (e : Exec) : (s.setExec e).key = s.key := rfl
@[simp] theorem State.setExec_exec (s : State) (e : Exec) : (s.setExec e).exec = e := rfl
@[simp] theorem State.setExec_kprev (s : State) (e : Exec) : (s.setExec e).kprev = s.kprev := rfl
@[simp] theorem State.setExec_mem (s : State) (e : Exec) : (s.setExec e).mem = s.mem := rfl
@[simp] theorem State.setExec_randomIn (s : State) (e : Exec) : (s.setExec e).randomIn = s.randomIn := rfl
@[simp] theorem State.setExec_draws (s : State) (e : Exec) : (s.setExec e).draws = s.draws := rfl
@[simp] theorem State.setExec_getV (s : State) (e : Exec) (k : Reg) : (s.setExec e).getV k = s.getV k := rfl

/-! ### `State.raise` -/

@[simp] theorem State.raise_cfg (s : State) (e : Fault) : (s.raise e).cfg = s.cfg := rfl
@[simp] theorem State.raise_v (s : State) (e : Fault) : (s.raise e).v = s.v := rfl
@[simp] theorem State.raise_i (s : State) (e : Fault) : (s.raise e).i = s.i := rfl
@[simp] theorem State.raise_pc (s : State) (e : Fault) : (s.raise e).pc = s.pc := rfl
@[simp] theorem State.raise_stack (s : State) (e : Fault) : (s.raise e).stack = s.stack := rfl
@[simp] theorem State.raise_dt (s : State) (e : Fault) : (s.raise e).dt = s.dt := rfl
@[simp] theorem State.raise_st (s : State) (e : Fault) : (s.raise e).st = s.st := rfl
@[simp] theorem State.raise_fb (s : State) (e : Fault) : (s.raise e).fb = s.fb := rfl
@[simp] theorem State.raise_key (s : State) (e : Fault) : (s.raise e).key = s.key := rfl
@[simp] theorem State.raise_exec (s : State) (e : Fault) : (s.raise e).exec = .halted e := rfl
@[simp] theorem State.raise_kprev (s : State) (e : Fault) : (s.raise e).kprev = s.kprev := rfl
@[simp] theorem State.raise_mem (s : State) (e : Fault) : (s.raise e).mem = s.mem := rfl
@[simp] theorem State.raise_randomIn (s : State) (e : Fault) : (s.raise e).randomIn = s.randomIn := rfl
@[simp] theorem State.raise_draws (s : State) (e : Fault) : (s.raise e).draws = s.draws := rfl
@[simp] theorem State.raise_getV (s : State) (e : Fault) (k : Reg) : (s.raise e).getV k = s.getV k := rfl

/-! ### `State.snapshotKeys` -/

@[simp] theorem State.snapshotKeys_cfg (s : State) : (s.snapshotKeys).cfg = s.cfg := rfl
@[simp] theorem State.snapshotKeys_v (s : State) : (s.snapshotKeys).v = s.v := rfl
@[simp] theorem State.snapshotKeys_i (s : State) : (s.snapshotKeys).i = s.i := rfl
@[simp] theorem State.snapshotKeys_pc (s : State) : (s.snapshotKeys).pc = s.pc := rfl
@[simp] theorem State.snapshotKeys_stack (s : State) : (s.snapshotKeys).stack = s.stack := rfl
@[simp] theorem State.snapshotKeys_dt (s : State) : (s.snapshotKeys).dt = s.dt := rfl
@[simp] theorem State.snapshotKeys_st (s : State) : (s.snapshotKeys).st = s.st := rfl
@[simp] theorem State.snapshotKeys_fb (s : State) : (s.snapshotKeys).fb = s.fb := rfl
@[simp] theorem State.snapshotKeys_key (s : State) : (s.snapshotKeys).key = s.key := rfl
@[simp] theorem State.snapshotKeys_exec (s : State) : (s.snapshotKeys).exec = s.exec := rfl
@[simp] theorem State.snapshotKeys_kprev (s : State) : (s.snapshotKeys).kprev = s.key := rfl
@[simp] theorem State.snapshotKeys_mem (s : State) : (s.snapshotKeys).mem = s.mem := rfl
@[simp] theorem State.snapshotKeys_randomIn (s : State) : (s.snapshotKeys).randomIn = s.randomIn := rfl
@[simp] theorem State.snapshotKeys_draws (s : State) : (s.snapshotKeys).draws = s.draws := rfl
@[simp] theorem State.snapshotKeys_getV (s : State) (k : Reg) : (s.snapshotKeys).getV k = s.getV k := rfl

/-! ### `State.afterDraw` -/

@[simp] theorem State.afterDraw_cfg (s : State) : (s.afterDraw).cfg = s.cfg := rfl
@[simp] theorem State.afterDraw_v (s : State) : (s.afterDraw).v = s.v := rfl
@[simp] theorem State.afterDraw_i (s : State) : (s.afterDraw).i = s.i := rfl
@[simp] theorem State.afterDraw_pc (s : State) : (s.afterDraw).pc = s.pc := rfl
@[simp] theorem State.afterDraw_stack (s : State) : (s.afterDraw).stack = s.stack := rfl
@[simp] theorem State.afterDraw_dt (s : State) : (s.afterDraw).dt = s.dt := rfl
@[simp] theorem State.afterDraw_st (s : State) : (s.afterDraw).st = s.st := rfl
@[simp] theorem State.afterDraw_fb (s : State) : (s.afterDraw).fb = s.fb := rfl
@[simp] theorem State.afterDraw_key (s : State) : (s.afterDraw).key = s.key := rfl
@[simp] theorem State.afterDraw_exec (s : State) : (s.afterDraw).exec = s.exec := rfl
@[simp] theorem State.afterDraw_kprev (s : State) : (s.afterDraw).kprev = s.kprev := rfl
@[simp] theorem State.afterDraw_mem (s : State) : (s.afterDraw).mem = s.mem := rfl
@[simp] theorem State.afterDraw_randomIn (s : State) : (s.afterDraw).randomIn = s.randomIn.tail := rfl
@[simp] theorem State.afterDraw_draws (s : State) : (s.afterDraw).draws = s.draws + 1 := rfl
@[simp] theorem State.afterDraw_getV (s : State) (k : Reg) : (s.afterDraw).getV k = s.getV k := rfl

/-! ### `State.tickTimers` -/

@[simp] theorem State.tickTimers_cfg (s : State) : (s.tickTimers).cfg = s.cfg := rfl
@[simp] theorem State.tickTimers_v (s : State) : (s.tickTimers).v = s.v := rfl
@[simp] theorem State.tickTimers_i (s : State) : (s.tickTimers).i = s.i := rfl
@[simp] theorem State.tickTimers_pc (s : State) : (s.tickTimers).pc = s.pc := rfl
@[simp] theorem State.tickTimers_stack (s : State) : (s.tickTimers).stack = s.stack := rfl
@[simp] theorem State.tickTimers_dt (s : State) : (s.tickTimers).dt = tickDown s.dt := rfl
@[simp] theorem State.tickTimers_st (s : State) : (s.tickTimers).st = tickDown s.st := rfl
@[simp] theorem State.tickTimers_fb (s : State) : (s.tickTimers).fb = s.fb := rfl
@[simp] theorem State.tickTimers_key (s : State) : (s.tickTimers).key = s.key := rfl
@[simp] theorem State.tickTimers_exec (s : State) : (s.tickTimers).exec = s.exec := rfl
@[simp] theorem State.tickTimers_kprev (s : State) : (s.tickTimers).kprev = s.kprev := rfl
@[simp] theorem State.tickTimers_mem (s : State) : (s.tickTimers).mem = s.mem := rfl
@[simp] theorem State.tickTimers_randomIn (s : State) : (s.tickTimers).randomIn = s.randomIn := rfl
@[simp] theorem State.tickTimers_draws (s : State) : (s.tickTimers).draws = s.draws := rfl
@[simp] theorem State.tickTimers_getV (s : State) (k : Reg) : (s.tickTimers).getV k = s.getV k := rfl

/-! ### `State.supplyRandom` -/

@[simp] theorem State.supplyRandom_cfg (s : State) (b : Byte) : (s.supplyRandom b).cfg = s.cfg := rfl
@[simp] theorem State.supplyRandom_v (s : State) (b : Byte) : (s.supplyRandom b).v = s.v := rfl
@[simp] theorem State.supplyRandom_i (s : State) (b : Byte) : (s.supplyRandom b).i = s.i := rfl
@[simp] theorem State.supplyRandom_pc (s : State) (b : Byte) : (s.supplyRandom b).pc = s.pc := rfl
@[simp] theorem State.supplyRandom_stack (s : State) (b : Byte) : (s.supplyRandom b).stack = s.stack := rfl
@[simp] theorem State.supplyRandom_dt (s : State) (b : Byte) : (s.supplyRandom b).dt = s.dt := rfl
@[simp] theorem State.supplyRandom_st (s : State) (b : Byte) : (s.supplyRandom b).st = s.st := rfl
@[simp] theorem State.supplyRandom_fb (s : State) (b : Byte) : (s.supplyRandom b).fb = s.fb := rfl
@[simp] theorem State.supplyRandom_key (s : State) (b : Byte) : (s.supplyRandom b).key = s.key := rfl
@[simp] theorem State.supplyRandom_exec (s : State) (b : Byte) : (s.supplyRandom b).exec = s.exec := rfl
@[simp] theorem State.supplyRandom_kprev (s : State) (b : Byte) : (s.supplyRandom b).kprev = s.kprev := rfl
@[simp] theorem State.supplyRandom_mem (s : State) (b : Byte) : (s.supplyRandom b).mem = s.mem := rfl
@[simp] theorem State.supplyRandom_randomIn (s : State) (b : Byte) : (s.supplyRandom b).randomIn = s.randomIn ++ [b] := rfl
@[simp] theorem State.supplyRandom_draws (s : State) (b : Byte) : (s.supplyRandom b).draws = s.draws := rfl
@[simp] theorem State.supplyRandom_getV (s : State) (b : Byte) (k : Reg) : (s.supplyRandom b).getV k = s.getV k := rfl

/-! ### `State.setFlag` -/

@[simp] theorem State.setFlag_cfg (s : State) (f : Byte) : (s.setFlag f).cfg = s.cfg := rfl
@[simp] theorem State.setFlag_i (s : State) (f : Byte) : (s.setFlag f).i = s.i := rfl
@[simp] theorem State.setFlag_pc (s : State) (f : Byte) : (s.setFlag f).pc = s.pc := rfl
@[simp] theorem State.setFlag_stack (s : State) (f : Byte) : (s.setFlag f).stack = s.stack := rfl
@[simp] theorem State.setFlag_dt (s : State) (f : Byte) : (s.setFlag f).dt = s.dt := rfl
@[simp] theorem State.setFlag_st (s : State) (f : Byte) : (s.setFlag f).st = s.st := rfl
@[simp] theorem State.setFlag_fb (s : State) (f : Byte) : (s.setFlag f).fb = s.fb := rfl
@[simp] theorem State.setFlag_key (s : State) (f : Byte) : (s.setFlag f).key = s.key := rfl
@[simp] theorem State.setFlag_exec (s : State) (f : Byte) : (s.setFlag f).exec = s.exec := rfl
@[simp] theorem State.setFlag_kprev (s : State) (f : Byte) : (s.setFlag f).kprev = s.kprev := rfl
@[simp] theorem State.setFlag_mem (s : State) (f : Byte) : (s.setFlag f).mem = s.mem := rfl
@[simp] theorem State.setFlag_randomIn (s : State) (f : Byte) : (s.setFlag f).randomIn = s.randomIn := rfl
@[simp] theorem State.setFlag_draws (s : State) (f : Byte) : (s.setFlag f).draws = s.draws := rfl

/-! ### `State.setVFlag` -/

@[simp] theorem State.setVFlag_cfg (s : State) (x : Reg) (r f : Byte) : (s.setVFlag x r f).cfg = s.cfg := rfl
@[simp] theorem State.setVFlag_i (s : State) (x : Reg) (r f : Byte) : (s.setVFlag x r f).i = s.i := rfl
@[simp] theorem State.setVFlag_pc (s : State) (x : Reg) (r f : Byte) : (s.setVFlag x r f).pc = s.pc := rfl
@[simp] theorem State.setVFlag_stack (s : State) (x : Reg) (r f : Byte) : (s.setVFlag x r f).stack = s.stack := rfl
@[simp] theorem State.setVFlag_dt (s : State) (x : Reg) (r f : Byte) : (s.setVFlag x r f).dt = s.dt := rfl
@[simp] theorem State.setVFlag_st (s : State) (x : Reg) (r f : Byte) : (s.setVFlag x r f).st = s.st := rfl
@[simp] theorem State.setVFlag_fb (s : State) (x : Reg) (r f : Byte) : (s.setVFlag x r f).fb = s.fb := rfl
@[simp] theorem State.setVFlag_key (s : State) (x : Reg) (r f : Byte) : (s.setVFlag x r f).key = s.key := rfl
@[simp] theorem State.setVFlag_exec (s : State) (x : Reg) (r f : Byte) : (s.setVFlag x r f).exec = s.exec := rfl
@[simp] theorem State.setVFlag_kprev (s : State) (x : Reg) (r f : Byte) : (s.setVFlag x r f).kprev = s.kprev := rfl
@[simp] theorem State.setVFlag_mem (s : State) (x : Reg) (r f : Byte) : (s.setVFlag x r f).mem = s.mem := rfl
@[simp] theorem State.setVFlag_randomIn (s : State) (x : Reg) (r f : Byte) : (s.setVFlag x r f).randomIn = s.randomIn := rfl
@[simp] theorem State.setVFlag_draws (s : State) (x : Reg) (r f : Byte) : (s.setVFlag x r f).draws = s.draws := rfl

/-! ### `State.setVLogic` -/

@[simp] theorem State.setVLogic_cfg (s : State) (x : Reg) (r : Byte) : (s.setVLogic x r).cfg = s.cfg := by
  unfold State.setVLogic; split <;> rfl
@[simp] theorem State.setVLogic_i (s : State) (x : Reg) (r : Byte) : (s.setVLogic x r).i = s.i := by
  unfold State.setVLogic; split <;> rfl
@[simp] theorem State.setVLogic_pc (s : State) (x : Reg) (r : Byte) : (s.setVLogic x r).pc = s.pc := by
  unfold State.setVLogic; split <;> rfl
@[simp] theorem State.setVLogic_stack (s : State) (x : Reg) (r : Byte) : (s.setVLogic x r).stack = s.stack := by
  unfold State.setVLogic; split <;> rfl
@[simp] theorem State.setVLogic_dt (s : State) (x : Reg) (r : Byte) : (s.setVLogic x r).dt = s.dt := by
  unfold State.setVLogic; split <;> rfl
@[simp] theorem State.setVLogic_st (s : State) (x : Reg) (r : Byte) : (s.setVLogic x r).st = s.st := by
  unfold State.setVLogic; split <;> rfl
@[simp] theorem State.setVLogic_fb (s : State) (x : Reg) (r : Byte) : (s.setVLogic x r).fb = s.fb := by
  unfold State.setVLogic; split <;> rfl
@[simp] theorem State.setVLogic_key (s : State) (x : Reg) (r : Byte) : (s.setVLogic x r).key = s.key := by
  unfold State.setVLogic; split <;> rfl
@[simp] theorem State.setVLogic_exec (s : State) (x : Reg) (r : Byte) : (s.setVLogic x r).exec = s.exec := by
  unfold State.setVLogic; split <;> rfl
@[simp] theorem State.setVLogic_kprev (s : State) (x : Reg) (r : Byte) : (s.setVLogic x r).kprev = s.kprev := by
  unfold State.setVLogic; split <;> rfl
@[simp] theorem State.setVLogic_mem (s : State) (x : Reg) (r : Byte) : (s.setVLogic x r).mem = s.mem := by
  unfold State.setVLogic; split <;> rfl
@[simp] theorem State.setVLogic_randomIn (s : State) (x : Reg) (r : Byte) : (s.setVLogic x r).randomIn = s.randomIn := by
  unfold State.setVLogic; split <;> rfl
@[simp] theorem State.setVLogic_draws (s : State) (x : Reg) (r : Byte) : (s.setVLogic x r).draws = s.draws := by
  unfold State.setVLogic; split <;> rfl

/-! ### `State.skipIf` -/

@[simp] theorem State.skipIf_cfg (s : State) (c : Bool) : (s.skipIf c).cfg = s.cfg := by
  unfold State.skipIf; split <;> rfl
@[simp] theorem State.skipIf_v (s : State) (c : Bool) : (s.skipIf c).v = s.v := by
  unfold State.skipIf; split <;> rfl
@[simp] theorem State.skipIf_i (s : State) (c : Bool) : (s.skipIf c).i = s.i := by
  unfold State.skipIf; split <;> rfl
@[simp] theorem State.skipIf_stack (s : State) (c : Bool) : (s.skipIf c).stack = s.stack := by
  unfold State.skipIf; split <;> rfl
@[simp] theorem State.skipIf_dt (s : State) (c : Bool) : (s.skipIf c).dt = s.dt := by
  unfold State.skipIf; split <;> rfl
@[simp] theorem State.skipIf_st (s : State) (c : Bool) : (s.skipIf c).st = s.st := by
  unfold State.skipIf; split <;> rfl
@[simp] theorem State.skipIf_fb (s : State) (c : Bool) : (s.skipIf c).fb = s.fb := by
  unfold State.skipIf; split <;> rfl
@[simp] theorem State.skipIf_key (s : State) (c : Bool) : (s.skipIf c).key = s.key := by
  unfold State.skipIf; split <;> rfl
@[simp] theorem State.skipIf_exec (s : State) (c : Bool) : (s.skipIf c).exec = s.exec := by
  unfold State.skipIf; split <;> rfl
@[simp] theorem State.skipIf_kprev (s : State) (c : Bool) : (s.skipIf c).kprev = s.kprev := by
  unfold State.skipIf; split <;> rfl
@[simp] theorem State.skipIf_mem (s : State) (c : Bool) : (s.skipIf c).mem = s.mem := by
  unfold State.skipIf; split <;> rfl
@[simp] theorem State.skipIf_randomIn (s : State) (c : Bool) : (s.skipIf c).randomIn = s.randomIn := by
  unfold State.skipIf; split <;> rfl
@[simp] theorem State.skipIf_draws (s : State) (c : Bool) : (s.skipIf c).draws = s.draws := by
  unfold State.skipIf; split <;> rfl
theorem State.skipIf_pc (s : State) (c : Bool) : (s.skipIf c).pc = if c then s.pc + 4#16 else s.pc + 2#16 := by
  unfold State.skipIf; split <;> rfl
@[simp] theorem State.skipIf_getV (s : State) (c : Bool) (k : Reg) : (s.skipIf c).getV k = s.getV k := by
  unfold State.skipIf; split <;> rfl

/-! ### Reading V back -/

theorem State.getV_setV (s : State) (x k : Reg) (b : Byte) :
    (s.setV x b).getV k = if k = x then b else s.getV k := by
  by_cases h : k = x
  · subst h; simp [State.getV, State.setV]
  · have h' : x.val ≠ k.val := fun e => h (Fin.ext e.symm)
    simp [State.getV, State.setV, h, h']

@[simp] theorem State.getV_setV_self (s : State) (x : Reg) (b : Byte) : (s.setV x b).getV x = b := by
  simp [State.getV_setV]

theorem State.getV_setV_ne (s : State) {x k : Reg} (b : Byte) (h : k ≠ x) : (s.setV x b).getV k = s.getV k := by
  simp [State.getV_setV, h]

@[simp] theorem State.getV_setVRange (s : State) (l : List Byte) (k : Reg) :
    (s.setVRange l).getV k = l.getD k.val (s.getV k) := by
  simp [State.getV, State.setVRange]

theorem State.getV_setFlag (s : State) (k : Reg) (f : Byte) : (s.setFlag f).getV k = if k = 15 then f else s.getV k := by
  simp [State.setFlag, flagReg, State.getV_setV]

theorem State.getV_setVFlag (s : State) (x k : Reg) (r f : Byte) :
    (s.setVFlag x r f).getV k = if k = 15 then f else if k = x then r else s.getV k := by
  simp [State.setVFlag, State.setFlag, flagReg, State.getV_setV]

theorem State.getV_setVLogic (s : State) (x k : Reg) (r : Byte) :
    (s.setVLogic x r).getV k =
      if k = 15 ∧ s.cfg.logicResetsVf = true then 0#8 else if k = x then r else s.getV k := by
  cases h : s.cfg.logicResetsVf <;> simp [State.setVLogic, h, State.getV_setVFlag, State.getV_setV]

/-- The two flag-writing updates change V and nothing else. -/
theorem State.setVFlag_eq (s : State) (x : Reg) (r f : Byte) :
    s.setVFlag x r f = { s with v := (s.setVFlag x r f).v } := rfl

theorem State.setVLogic_eq (s : State) (x : Reg) (r : Byte) :
    s.setVLogic x r = { s with v := (s.setVLogic x r).v } := by
  unfold State.setVLogic; split <;> rfl

/-- Two states with the same V registers, read one by one, have the same `v`. -/
theorem State.v_ext {s t : State} (h : ∀ k, s.getV k = t.getV k) : s.v = t.v := by
  apply Vector.ext
  intro k hk
  exact h ⟨k, hk⟩

/-- `V[0] .. V[x]` has x + 1 entries, and its k-th is V[k]. -/
@[simp] theorem State.getVRange_length (s : State) (x : Reg) : (s.getVRange x).length = x.val + 1 := by
  have := x.isLt
  simp [State.getVRange]

theorem State.getVRange_getElem (s : State) (x k : Reg) (h : k.val < (s.getVRange x).length) :
    (s.getVRange x)[k.val] = s.getV k := by
  simp [State.getVRange, State.getV]

end Sys2Proof.Machine
end

