-- ==== Sys2Proof/Laws/Memory.lean ====
section
/-! SUPPORT. The laws of memory: reading back what was written, the canonical form kept, and what a block transfer can do. -/

namespace Sys2Proof.Machine

/-! ### Reading back -/

theorem Memory.read_erase (m : Memory) (a b : Nat) :
    Memory.read (Memory.erase m a) b = if b = a then unlistedByte else Memory.read m b := by
  induction m with
  | nil => simp [Memory.erase, Memory.read]
  | cons c m ih =>
    simp only [Memory.erase, List.filter_cons] at ih ⊢
    by_cases hc : c.1 = a
    · simp only [hc, ne_eq, not_true_eq_false, decide_false, Bool.false_eq_true, if_false, ih, Memory.read]
      by_cases hb : b = a
      · simp [hb]
      · simp [hb, Ne.symm hb]
    · simp only [ne_eq, hc, not_false_eq_true, decide_true, if_true, Memory.read, ih]
      by_cases hb : b = a
      · subst hb; simp [hc]
      · simp [hb]

theorem Memory.read_insert (m : Memory) (c : Host.Cell) (b : Nat) (h : ∀ d ∈ m, d.1 ≠ c.1) :
    Memory.read (Memory.insert m c) b = if b = c.1 then c.2 else Memory.read m b := by
  induction m with
  | nil => simp [Memory.insert, Memory.read, eq_comm]
  | cons d m ih =>
    have hd : d.1 ≠ c.1 := h d (by simp)
    have ih := ih fun e he => h e (by simp [he])
    unfold Memory.insert
    split
    · simp only [Memory.read, eq_comm]
    · simp only [Memory.read, ih]
      by_cases hb : b = c.1
      · subst hb; simp [hd]
      · simp [hb]

theorem Memory.mem_erase_ne (m : Memory) (a : Nat) : ∀ d ∈ Memory.erase m a, d.1 ≠ a := by
  intro d hd
  simpa using (List.mem_filter.mp hd).2

/-- A read after a write: the byte written at its address, what was there at every other (20_memory.md R53). -/
theorem Memory.read_write (m : Memory) (a : Nat) (v : Byte) (b : Nat) :
    Memory.read (Memory.write m a v) b = if b = a then v else Memory.read m b := by
  unfold Memory.write
  split
  · next h => rw [Memory.read_erase]; split
              · next hb => rw [h]
              · rfl
  · rw [Memory.read_insert _ _ _ (Memory.mem_erase_ne m a), Memory.read_erase]
    split <;> simp_all

/-- A read after a block write: byte b − a of the block inside it, what was there outside. -/
theorem Memory.read_writeList (m : Memory) (a : Nat) (l : List Byte) (b : Nat) :
    Memory.read (Memory.writeList m a l) b =
      if a ≤ b ∧ b < a + l.length then l.getD (b - a) 0#8 else Memory.read m b := by
  induction l generalizing m a with
  | nil =>
    have : ¬ (a ≤ b ∧ b < a) := by omega
    simp [Memory.writeList, this]
  | cons v l ih =>
    simp only [Memory.writeList, ih, Memory.read_write, List.length_cons]
    by_cases h1 : b = a
    · subst h1
      have : ¬ (b + 1 ≤ b) := by omega
      simp [this]
    · by_cases h2 : a + 1 ≤ b ∧ b < a + 1 + l.length
      · have h3 : a ≤ b ∧ b < a + (l.length + 1) := by omega
        obtain ⟨k, hk⟩ : ∃ k, b - a = k + 1 := ⟨b - a - 1, by omega⟩
        have hk' : b - (a + 1) = k := by omega
        simp [h2, h3, hk, hk']
      · have h3 : ¬ (a ≤ b ∧ b < a + (l.length + 1)) := by omega
        rw [if_neg h2, if_neg h3, if_neg h1]

@[simp] theorem Memory.length_readList (m : Memory) (a n : Nat) : (Memory.readList m a n).length = n := by
  simp [Memory.readList]

theorem Memory.getD_readList (m : Memory) (a n k : Nat) (d : Byte) :
    (Memory.readList m a n).getD k d = if k < n then Memory.read m (a + k) else d := by
  unfold Memory.readList
  by_cases h : k < n <;> simp [List.getD_eq_getElem?_getD, h]

/-! ### The canonical form -/

theorem Memory.wf_cons (c : Host.Cell) (m : Memory) :
    Memory.wf (c :: m) = true ↔
      (c.1 < memSize ∧ c.2 ≠ unlistedByte) ∧ (∀ d ∈ m, c.1 < d.1) ∧ Memory.wf m = true := by
  simp only [Memory.wf, Bool.and_eq_true, decide_eq_true_eq, List.all_eq_true]
  tauto

theorem Memory.wf_erase {m : Memory} (h : Memory.wf m = true) (a : Nat) : Memory.wf (Memory.erase m a) = true := by
  induction m with
  | nil => rfl
  | cons c m ih =>
    obtain ⟨hc, hlt, hm⟩ := (Memory.wf_cons c m).mp h
    have ih := ih hm
    unfold Memory.erase at ih ⊢
    rw [List.filter_cons]
    split
    · exact (Memory.wf_cons c _).mpr ⟨hc, fun d hd => hlt d (List.mem_filter.mp hd).1, ih⟩
    · exact ih

theorem Memory.mem_insert (m : Memory) (c d : Host.Cell) : d ∈ Memory.insert m c ↔ d = c ∨ d ∈ m := by
  induction m with
  | nil => simp [Memory.insert]
  | cons e m ih =>
    unfold Memory.insert
    split
    · simp
    · simp only [List.mem_cons, ih]; tauto

theorem Memory.wf_insert {m : Memory} (h : Memory.wf m = true) (c : Host.Cell) (hc : c.1 < memSize ∧ c.2 ≠ unlistedByte)
    (hne : ∀ d ∈ m, d.1 ≠ c.1) : Memory.wf (Memory.insert m c) = true := by
  induction m with
  | nil => simp [Memory.insert, Memory.wf, hc]
  | cons d m ih =>
    obtain ⟨hd, hlt, hm⟩ := (Memory.wf_cons d m).mp h
    have hdc : d.1 ≠ c.1 := hne d (by simp)
    unfold Memory.insert
    split
    · next hcd =>
      refine (Memory.wf_cons c _).mpr ⟨hc, fun e he => ?_, h⟩
      rcases List.mem_cons.mp he with rfl | he
      · exact hcd
      · exact hcd.trans (hlt e he)
    · next hcd =>
      refine (Memory.wf_cons d _).mpr ⟨hd, fun e he => ?_, ih hm fun e he => hne e (by simp [he])⟩
      rcases (Memory.mem_insert m c e).mp he with rfl | he
      · omega
      · exact hlt e he

/-- Every write inside the address space keeps the canonical form. -/
theorem Memory.wf_write {m : Memory} (h : Memory.wf m = true) {a : Nat} (ha : a < memSize) (v : Byte) :
    Memory.wf (Memory.write m a v) = true := by
  unfold Memory.write
  split
  · exact Memory.wf_erase h a
  · next hv => exact Memory.wf_insert (Memory.wf_erase h a) (a, v) ⟨ha, hv⟩ (Memory.mem_erase_ne m a)

/-- Every block write inside the address space keeps the canonical form. -/
theorem Memory.wf_writeList {m : Memory} (h : Memory.wf m = true) {a : Nat} {l : List Byte} (ha : a + l.length ≤ memSize) :
    Memory.wf (Memory.writeList m a l) = true := by
  induction l generalizing m a with
  | nil => exact h
  | cons v l ih =>
    have ha' : a + 1 + l.length ≤ memSize := by simp only [List.length_cons] at ha; omega
    have ha0 : a < memSize := by simp only [List.length_cons] at ha; omega
    exact ih (Memory.wf_write h ha0 v) ha'

/-! ### Memory after reset -/

/-- Reading cells laid down from `a` up: byte b − a of the bytes inside them, `unlistedByte` outside. -/
theorem Memory.read_cellsFrom (a : Nat) (l : List Byte) (b : Nat) :
    Memory.read (cellsFrom a l) b = if a ≤ b ∧ b < a + l.length then l.getD (b - a) unlistedByte else unlistedByte := by
  induction l generalizing a with
  | nil => simp [cellsFrom, Memory.read]
  | cons v l ih =>
    have hstep : Memory.read (cellsFrom a (v :: l)) b = if b = a then v else Memory.read (cellsFrom (a + 1) l) b := by
      rw [cellsFrom]
      split
      · next hv =>
        split
        · next hb => rw [ih, if_neg (by omega), hv]
        · rfl
      · simp only [Memory.read, eq_comm]
    rw [hstep, ih]
    by_cases hb : b = a
    · simp [hb]
    · by_cases h : a + 1 ≤ b ∧ b < a + 1 + l.length
      · obtain ⟨k, rfl⟩ : ∃ k, b = a + 1 + k := ⟨b - a - 1, by omega⟩
        rw [if_neg hb, if_pos h, if_pos (by simp only [List.length_cons]; omega),
          show a + 1 + k - (a + 1) = k by omega, show a + 1 + k - a = k + 1 by omega, List.getD_cons_succ]
      · rw [if_neg hb, if_neg h, if_neg (by simp only [List.length_cons]; omega)]

theorem Memory.le_of_mem_cellsFrom {a : Nat} {l : List Byte} {c : Host.Cell} (h : c ∈ cellsFrom a l) : a ≤ c.1 := by
  induction l generalizing a with
  | nil => cases h
  | cons v l ih =>
    unfold cellsFrom at h
    split at h
    · exact (Nat.le_succ a).trans (ih h)
    · rcases List.mem_cons.mp h with rfl | h
      · exact le_rfl
      · exact (Nat.le_succ a).trans (ih h)

/-- Cells laid down inside the address space have the canonical form. -/
theorem Memory.wf_cellsFrom {a : Nat} {l : List Byte} (h : a + l.length ≤ memSize) : Memory.wf (cellsFrom a l) = true := by
  induction l generalizing a with
  | nil => rfl
  | cons v l ih =>
    rw [List.length_cons] at h
    have ih := ih (a := a + 1) (by omega)
    unfold cellsFrom
    split
    · exact ih
    · next hv => exact (Memory.wf_cons _ _).mpr ⟨⟨by omega, hv⟩, fun d hd => Memory.le_of_mem_cellsFrom hd, ih⟩

@[simp] theorem length_fontBytes (font : Font) : (fontBytes font).length = 80 := List.length_ofFn

/-- Byte 5·d + r of a font is row r of the glyph of digit d. -/
theorem getD_fontBytes (font : Font) (d : Fin 16) (r : Fin 5) (b : Byte) :
    (fontBytes font).getD (5 * d.val + r.val) b = (font[d])[r] := by
  have hlt : 5 * d.val + r.val < 80 := by omega
  have hdiv : (5 * d.val + r.val) / 5 = d.val := by omega
  have hmod : (5 * d.val + r.val) % 5 = r.val := by omega
  rw [List.getD_eq_getElem?_getD, fontBytes, List.getElem?_ofFn, dif_pos hlt, Option.getD_some]
  simp only [hdiv, hmod]; rfl

/-- Every address after reset: the configured font from 0x050 to 0x09F, zero elsewhere (10_state.md R40). -/
theorem Memory.read_reset (cfg : Configuration) (a : Nat) :
    Memory.read (State.resetWith cfg).mem a =
      if 0x050 ≤ a ∧ a ≤ 0x09F then (fontBytes cfg.font).getD (a - 0x050) unlistedByte else unlistedByte := by
  refine (Memory.read_cellsFrom fontBase (fontBytes cfg.font) a).trans ?_
  rw [length_fontBytes]
  unfold fontBase
  simp only [show a < 80 + 80 ↔ a ≤ 159 by omega]

/-- The memory after reset has the form, whatever the font. -/
theorem Memory.wf_reset (cfg : Configuration) : Memory.wf (State.resetWith cfg).mem = true :=
  Memory.wf_cellsFrom (by rw [length_fontBytes]; decide)

/-! ### The checked accesses -/

/-- The range check passes exactly when the range is empty or ends at or below 0xFFF. -/
theorem rangeFault_none (base count : Nat) : rangeFault base count = none ↔ count = 0 ∨ base + count ≤ 4096 := by
  unfold rangeFault; split <;> simp <;> omega

theorem rangeFault_some (base count : Nat) (e : Fault) :
    rangeFault base count = some e ↔
      (0 < count ∧ 4096 < base + count) ∧ e = .outOfBoundsMemoryAccess (max base 0x1000) := by
  unfold rangeFault; split
  · constructor
    · intro h; exact ⟨by omega, (Option.some.inj h).symm⟩
    · rintro ⟨-, rfl⟩; rfl
  · constructor
    · intro h; cases h
    · rintro ⟨h, -⟩; omega

/-- A store either writes the whole block or raises the error of its range. -/
theorem State.storeBytes_cases (s : State) (base : Nat) (l : List Byte) :
    ((l.length = 0 ∨ base + l.length ≤ 4096) ∧ s.storeBytes base l = .ok (s.setMem (Memory.writeList s.mem base l))) ∨
    ((0 < l.length ∧ 4096 < base + l.length) ∧
      s.storeBytes base l = .error (.outOfBoundsMemoryAccess (max base 0x1000))) := by
  unfold State.storeBytes
  cases h : rangeFault base l.length with
  | none => exact .inl ⟨(rangeFault_none _ _).mp h, rfl⟩
  | some e => obtain ⟨h1, rfl⟩ := (rangeFault_some _ _ _).mp h; exact .inr ⟨h1, rfl⟩

/-- A load either reads the whole block or raises the error of its range. -/
theorem State.loadBytes_cases (s : State) (base n : Nat) :
    ((n = 0 ∨ base + n ≤ 4096) ∧ s.loadBytes base n = .ok (Memory.readList s.mem base n)) ∨
    ((0 < n ∧ 4096 < base + n) ∧ s.loadBytes base n = .error (.outOfBoundsMemoryAccess (max base 0x1000))) := by
  unfold State.loadBytes
  cases h : rangeFault base n with
  | none => exact .inl ⟨(rangeFault_none _ _).mp h, rfl⟩
  | some e => obtain ⟨h1, rfl⟩ := (rangeFault_some _ _ _).mp h; exact .inr ⟨h1, rfl⟩

/-- Storing one byte is `MemWrite(a, 1, b)`. -/
theorem State.storeBytes_singleton (s : State) (a : Nat) (b : Byte) : s.storeBytes a [b] = s.memWrite a b := by
  unfold State.memWrite
  rcases s.storeBytes_cases a [b] with ⟨h, e⟩ | ⟨h, e⟩ <;> rw [e] <;> simp only [List.length_singleton] at h
  · rw [if_neg (by omega)]; rfl
  · rw [if_pos (by omega), Nat.max_eq_left (by omega)]

/-- Loading one byte is `MemRead(a, 1)`. -/
theorem State.loadBytes_one (s : State) (a : Nat) : s.loadBytes a 1 = (s.memRead a).map fun b => [b] := by
  unfold State.memRead
  rcases s.loadBytes_cases a 1 with ⟨h, e⟩ | ⟨h, e⟩ <;> rw [e]
  · rw [if_neg (by omega)]; rfl
  · rw [if_pos (by omega), Nat.max_eq_left (by omega)]; rfl

end Sys2Proof.Machine
end

