-- ==== Sys2Proof/Laws/Display.lean ====
section
/-! SUPPORT. The laws of the display buffer and of the sprite blitter. -/

namespace Sys2Proof.Machine

theorem Frame.get_set (f : Frame) (x x' : Fin 64) (y y' : Fin 32) (p : Bool) :
    Frame.get (Frame.set f x y p) x' y' = if x' = x ∧ y' = y then p else Frame.get f x' y' := by
  unfold Frame.get Frame.set
  by_cases hy : y' = y
  · subst hy
    by_cases hx : x' = x
    · subst hx; simp
    · have : x.val ≠ x'.val := fun e => hx (Fin.ext e.symm)
      simp [hx, this]
  · have : y.val ≠ y'.val := fun e => hy (Fin.ext e.symm)
    simp [hy, this]

@[simp] theorem Frame.get_blank (x : Fin 64) (y : Fin 32) : Frame.get Frame.blank x y = false := by
  simp [Frame.get, Frame.blank]

/-- Two displays with the same pixels are the same display. -/
theorem Frame.ext_get {f g : Frame} (h : ∀ x y, Frame.get f x y = Frame.get g x y) : f = g := by
  apply Vector.ext
  intro y hy
  apply Vector.ext
  intro x hx
  exact h ⟨x, hx⟩ ⟨y, hy⟩

/-- The display pixels under the 1 bits of a sprite byte, left to right. -/
def rowHits (edge : DrawEdge) (x0 py : Nat) (b : Byte) : List (Fin 64 × Fin 32) :=
  (List.range 8).filterMap fun c => if spriteBit b c then placePixel edge (x0 + c) py else none

/-- The display pixels under the 1 bits of a sprite, in drawing order. -/
def spriteHits (edge : DrawEdge) (x0 py : Nat) (sprite : List Byte) : List (Fin 64 × Fin 32) :=
  match sprite with
  | [] => []
  | b :: rest => rowHits edge x0 py b ++ spriteHits edge x0 (py + 1) rest

/-- Flips one display pixel and notes a collision. -/
def flipPixel (acc : Frame × Bool) (p : Fin 64 × Fin 32) : Frame × Bool :=
  (Frame.set acc.1 p.1 p.2 (!Frame.get acc.1 p.1 p.2), acc.2 || Frame.get acc.1 p.1 p.2)

theorem drawRow_eq (edge : DrawEdge) (x0 py : Nat) (b : Byte) (acc : Frame × Bool) :
    drawRow edge x0 py b acc = (rowHits edge x0 py b).foldl flipPixel acc := by
  unfold drawRow rowHits
  rw [List.foldl_filterMap]
  congr 1
  funext a c
  unfold drawPixel
  cases spriteBit b c <;> cases placePixel edge (x0 + c) py <;> simp [flipPixel]

/-- Drawing is flipping the hit pixels one after another. -/
theorem drawRows_eq (edge : DrawEdge) (x0 py : Nat) (sprite : List Byte) (acc : Frame × Bool) :
    drawRows edge x0 py sprite acc = (spriteHits edge x0 py sprite).foldl flipPixel acc := by
  induction sprite generalizing py acc with
  | nil => rfl
  | cons b rest ih => rw [drawRows, ih, drawRow_eq, spriteHits, List.foldl_append]

/-- Flipping pixels that are all different: each of them is inverted, the others stay, and the collision says whether one was
set. -/
theorem foldl_flipPixel (l : List (Fin 64 × Fin 32)) (h : l.Nodup) (acc : Frame × Bool) :
    (∀ x y, Frame.get (l.foldl flipPixel acc).1 x y =
      if (x, y) ∈ l then !Frame.get acc.1 x y else Frame.get acc.1 x y) ∧
    ((l.foldl flipPixel acc).2 = (acc.2 || l.any fun p => Frame.get acc.1 p.1 p.2)) := by
  induction l generalizing acc with
  | nil => simp
  | cons p l ih =>
    obtain ⟨hp, hl⟩ := List.nodup_cons.mp h
    obtain ⟨ih1, ih2⟩ := ih hl (flipPixel acc p)
    have hget : ∀ x y, Frame.get (flipPixel acc p).1 x y =
        if (x, y) = p then !Frame.get acc.1 x y else Frame.get acc.1 x y := by
      intro x y
      simp only [flipPixel, Frame.get_set, Prod.ext_iff]
      split
      · next e => rw [e.1, e.2]
      · rfl
    refine ⟨fun x y => ?_, ?_⟩
    · rw [List.foldl_cons, ih1, hget]
      by_cases e : (x, y) = p
      · rw [e]; simp [hp]
      · simp [e]
    · rw [List.foldl_cons, ih2, List.any_cons, flipPixel, Bool.or_assoc]
      congr 2
      rw [Bool.eq_iff_iff, List.any_eq_true, List.any_eq_true]
      have key : ∀ q ∈ l, Frame.get (flipPixel acc p).1 q.1 q.2 = Frame.get acc.1 q.1 q.2 := by
        intro q hq
        rw [hget, if_neg]
        rintro rfl
        exact hp hq
      constructor
      · rintro ⟨q, hq, e⟩; exact ⟨q, hq, by rw [← key q hq]; exact e⟩
      · rintro ⟨q, hq, e⟩; exact ⟨q, hq, by rw [← e]; exact key q hq⟩

theorem mem_rowHits (edge : DrawEdge) (x0 py : Nat) (b : Byte) (p : Fin 64 × Fin 32) :
    p ∈ rowHits edge x0 py b ↔ ∃ c, c < 8 ∧ spriteBit b c = true ∧ placePixel edge (x0 + c) py = some p := by
  simp only [rowHits, List.mem_filterMap, List.mem_range]
  constructor
  · rintro ⟨c, hc, e⟩
    split at e
    · exact ⟨c, hc, ‹_›, e⟩
    · cases e
  · rintro ⟨c, hc, hb, e⟩; exact ⟨c, hc, by rw [if_pos hb]; exact e⟩

theorem mem_spriteHits (edge : DrawEdge) (x0 py : Nat) (sprite : List Byte) (p : Fin 64 × Fin 32) :
    p ∈ spriteHits edge x0 py sprite ↔ ∃ r c, r < sprite.length ∧ c < 8 ∧
      spriteBit (sprite.getD r 0#8) c = true ∧ placePixel edge (x0 + c) (py + r) = some p := by
  induction sprite generalizing py with
  | nil => simp [spriteHits]
  | cons b rest ih =>
    rw [spriteHits, List.mem_append, mem_rowHits, ih]
    constructor
    · rintro (⟨c, hc, hb, e⟩ | ⟨r, c, hr, hc, hb, e⟩)
      · exact ⟨0, c, by simp, hc, by simpa using hb, by simpa using e⟩
      · exact ⟨r + 1, c, by simpa using hr, hc, by simpa using hb, by
          rw [← e]; congr 1; omega⟩
    · rintro ⟨r, c, hr, hc, hb, e⟩
      cases r with
      | zero => exact .inl ⟨c, hc, by simpa using hb, by simpa using e⟩
      | succ r => exact .inr ⟨r, c, by simpa using hr, hc, by simpa using hb, by
          rw [← e]; congr 1; omega⟩

/-- What a position is placed on, as numbers. -/
theorem placePixel_eq_some (edge : DrawEdge) (px py : Nat) (p : Fin 64 × Fin 32) :
    placePixel edge px py = some p ↔
      (edge = .wrap → px % 64 = p.1.val ∧ py % 32 = p.2.val) ∧ (edge = .clip → px = p.1.val ∧ py = p.2.val) := by
  obtain ⟨x, y⟩ := p
  cases edge
  · simp [placePixel, Prod.ext_iff, Fin.ext_iff, Fin.ofNat]
  · have hx := x.isLt
    have hy := y.isLt
    simp only [placePixel]
    split
    · next h =>
      rw [Option.some.injEq, Prod.ext_iff, Fin.ext_iff, Fin.ext_iff]
      simp [Fin.ofNat, Nat.mod_eq_of_lt h.1, Nat.mod_eq_of_lt h.2]
    · next h => simp; omega

theorem rowHits_nodup (edge : DrawEdge) (x0 py : Nat) (b : Byte) : (rowHits edge x0 py b).Nodup := by
  unfold rowHits List.Nodup
  rw [List.pairwise_filterMap]
  refine List.Pairwise.imp_of_mem ?_ List.pairwise_lt_range
  intro c d hc hd hlt p hp q hq hpq
  subst hpq
  simp only [List.mem_range] at hc hd
  split at hp
  · split at hq
    · rw [placePixel_eq_some] at hp hq
      cases edge <;> simp at hp hq <;> omega
    · cases hq
  · cases hp

/-- A sprite of at most 32 rows hits no display pixel twice, so the drawing order does not matter (45_display.md R193). -/
theorem spriteHits_nodup (edge : DrawEdge) (x0 py : Nat) (sprite : List Byte) (h : sprite.length ≤ 32) :
    (spriteHits edge x0 py sprite).Nodup := by
  induction sprite generalizing py with
  | nil => simp [spriteHits]
  | cons b rest ih =>
    simp only [List.length_cons] at h
    rw [spriteHits, List.nodup_append]
    refine ⟨rowHits_nodup edge x0 py b, ih _ (by omega), ?_⟩
    rintro p hp q hq rfl
    obtain ⟨c, -, -, e⟩ := (mem_rowHits _ _ _ _ _).mp hp
    obtain ⟨r, d, hr, -, -, e'⟩ := (mem_spriteHits _ _ _ _ _).mp hq
    rw [placePixel_eq_some] at e e'
    cases edge <;> simp at e e' <;> omega

/-- All that drawing a sprite of at most 32 rows can do: the hit pixels are inverted, the others stay, and the collision says
whether a hit pixel was set. -/
theorem drawRows_spec (edge : DrawEdge) (x0 py : Nat) (sprite : List Byte) (h : sprite.length ≤ 32) (acc : Frame × Bool) :
    (∀ x y, Frame.get (drawRows edge x0 py sprite acc).1 x y =
      if (x, y) ∈ spriteHits edge x0 py sprite then !Frame.get acc.1 x y else Frame.get acc.1 x y) ∧
    ((drawRows edge x0 py sprite acc).2 =
      (acc.2 || (spriteHits edge x0 py sprite).any fun p => Frame.get acc.1 p.1 p.2)) := by
  rw [drawRows_eq]
  exact foldl_flipPixel _ (spriteHits_nodup edge x0 py sprite h) acc

end Sys2Proof.Machine
end

