-- ==== Sys2Proof/Laws/PerInstr.lean ====
section
/-! SUPPORT. Statements made per instruction. RoundTrip: the decoder gives back an encoded well-formed instruction. -/

namespace Sys2Proof.Laws.RoundTrip

/-- The word of a well-formed instruction decodes to that instruction. -/
def Statement (i : Instr) : Prop := i.wellFormed = true → decodeWord (encodeWord i) = some i

theorem cls : Statement (.cls) := fun _ => by decide

theorem ret : Statement (.ret) := fun _ => by decide

theorem jpNnn (nnn : BitVec 12) : Statement (.jpNnn nnn) := fun _ => by
  simp [encodeWord, decodeWord]

theorem callNnn (nnn : BitVec 12) : Statement (.callNnn nnn) := fun _ => by
  simp [encodeWord, decodeWord]

theorem seVxNn (x : Reg) (nn : Byte) : Statement (.seVxNn x nn) := fun _ => by
  simp [encodeWord, decodeWord]

theorem sneVxNn (x : Reg) (nn : Byte) : Statement (.sneVxNn x nn) := fun _ => by
  simp [encodeWord, decodeWord]

theorem seVxVy (x y : Reg) : Statement (.seVxVy x y) := fun _ => by
  simp [encodeWord, decodeWord]

theorem ldVxNn (x : Reg) (nn : Byte) : Statement (.ldVxNn x nn) := fun _ => by
  simp [encodeWord, decodeWord]

theorem addVxNn (x : Reg) (nn : Byte) : Statement (.addVxNn x nn) := fun _ => by
  simp [encodeWord, decodeWord]

theorem ldVxVy (x y : Reg) : Statement (.ldVxVy x y) := fun _ => by
  simp [encodeWord, decodeWord, decodeGroup8]

theorem orVxVy (x y : Reg) : Statement (.orVxVy x y) := fun _ => by
  simp [encodeWord, decodeWord, decodeGroup8]

theorem andVxVy (x y : Reg) : Statement (.andVxVy x y) := fun _ => by
  simp [encodeWord, decodeWord, decodeGroup8]

theorem xorVxVy (x y : Reg) : Statement (.xorVxVy x y) := fun _ => by
  simp [encodeWord, decodeWord, decodeGroup8]

theorem addVxVy (x y : Reg) : Statement (.addVxVy x y) := fun _ => by
  simp [encodeWord, decodeWord, decodeGroup8]

theorem subVxVy (x y : Reg) : Statement (.subVxVy x y) := fun _ => by
  simp [encodeWord, decodeWord, decodeGroup8]

theorem shrVxVy (x y : Reg) : Statement (.shrVxVy x y) := fun _ => by
  simp [encodeWord, decodeWord, decodeGroup8]

theorem subnVxVy (x y : Reg) : Statement (.subnVxVy x y) := fun _ => by
  simp [encodeWord, decodeWord, decodeGroup8]

theorem shlVxVy (x y : Reg) : Statement (.shlVxVy x y) := fun _ => by
  simp [encodeWord, decodeWord, decodeGroup8]

theorem sneVxVy (x y : Reg) : Statement (.sneVxVy x y) := fun _ => by
  simp [encodeWord, decodeWord]

theorem ldINnn (nnn : BitVec 12) : Statement (.ldINnn nnn) := fun _ => by
  simp [encodeWord, decodeWord]

theorem jpV0Nnn (nnn : BitVec 12) : Statement (.jpV0Nnn nnn) := fun _ => by
  simp [encodeWord, decodeWord]

theorem rndVxNn (x : Reg) (nn : Byte) : Statement (.rndVxNn x nn) := fun _ => by
  simp [encodeWord, decodeWord]

theorem drwVxVyN (x y : Reg) (n : Nat) : Statement (.drwVxVyN x y n) := fun h => by
  have hn : n ≤ 15 := by simpa [Instr.wellFormed] using h
  have h16 : n % 16 = n := Nat.mod_eq_of_lt (by omega)
  simp [encodeWord, decodeWord, h16]

theorem skpVx (x : Reg) : Statement (.skpVx x) := fun _ => by
  simp [encodeWord, decodeWord, decodeGroupE]

theorem sknpVx (x : Reg) : Statement (.sknpVx x) := fun _ => by
  simp [encodeWord, decodeWord, decodeGroupE]

theorem ldVxDt (x : Reg) : Statement (.ldVxDt x) := fun _ => by
  simp [encodeWord, decodeWord, decodeGroupF]

theorem ldVxK (x : Reg) : Statement (.ldVxK x) := fun _ => by
  simp [encodeWord, decodeWord, decodeGroupF]

theorem ldDtVx (x : Reg) : Statement (.ldDtVx x) := fun _ => by
  simp [encodeWord, decodeWord, decodeGroupF]

theorem ldStVx (x : Reg) : Statement (.ldStVx x) := fun _ => by
  simp [encodeWord, decodeWord, decodeGroupF]

theorem addIVx (x : Reg) : Statement (.addIVx x) := fun _ => by
  simp [encodeWord, decodeWord, decodeGroupF]

theorem ldFVx (x : Reg) : Statement (.ldFVx x) := fun _ => by
  simp [encodeWord, decodeWord, decodeGroupF]

theorem ldBVx (x : Reg) : Statement (.ldBVx x) := fun _ => by
  simp [encodeWord, decodeWord, decodeGroupF]

theorem ldMemVx (x : Reg) : Statement (.ldMemVx x) := fun _ => by
  simp [encodeWord, decodeWord, decodeGroupF]

theorem ldVxMem (x : Reg) : Statement (.ldVxMem x) := fun _ => by
  simp [encodeWord, decodeWord, decodeGroupF]

end Sys2Proof.Laws.RoundTrip
end

