-- ==== Sys2Proof/Laws/Step.lean ====
section
/-! SUPPORT. What a step, and each meaning that may raise, can do: one lemma each, for proofs to cite. -/

namespace Sys2Proof.Machine

/-! ### Fetch and step -/

theorem toNat_wordOfBytes (hi lo : Byte) : (wordOfBytes hi lo).toNat = hi.toNat * 256 + lo.toNat := by
  have h1 := hi.isLt
  have h2 := lo.isLt
  rw [wordOfBytes, BitVec.toNat_append, Nat.shiftLeft_eq, Nat.mul_comm, ← Nat.two_pow_add_eq_or_of_lt (by omega) hi.toNat]

/-- A fetch faults above 0xFFE; otherwise the two bytes at PC decide. -/
theorem State.fetchDecode_cases (s : State) :
    (s.pc.toNat > 0xFFE ∧ s.fetchDecode = .error (.outOfBoundsMemoryAccess s.pc.toNat)) ∨
    (s.pc.toNat ≤ 0xFFE ∧ ∃ w : Word, w.toNat = s.wordAt s.pc.toNat ∧
      ((∃ i, decodeWord w = some i ∧ s.fetchDecode = .ok i) ∨
        (decodeWord w = none ∧ s.fetchDecode = .error (.invalidOpcode s.pc w)))) := by
  unfold State.fetchDecode State.memReadWord
  by_cases h : s.pc.toNat > 0xFFE
  · exact .inl ⟨h, by rw [if_pos h]⟩
  · refine .inr ⟨by omega, _, toNat_wordOfBytes _ _, ?_⟩
    rw [if_neg h]
    cases hd : decodeWord (wordOfBytes (Memory.read s.mem s.pc.toNat) (Memory.read s.mem (s.pc.toNat + 1))) with
    | none => exact .inr ⟨rfl, by simp [hd]⟩
    | some i => exact .inl ⟨i, rfl, by simp [hd]⟩

/-- Everything a step can do (40_step_cycle.md R111). -/
theorem step_cases (s : State) :
    (s.exec = .running ∧ ((∃ i, s.fetchDecode = .ok i ∧ step s = exec i s) ∨
      (∃ e, s.fetchDecode = .error e ∧ step s = .next (s.raise e)))) ∨
    (∃ x, s.exec = .waitingForKey x ∧ step s = .next (s.pollKey x)) ∨
    (∃ e, s.exec = .halted e ∧ step s = .next s) := by
  unfold step
  cases h : s.exec with
  | running =>
    refine .inl ⟨rfl, ?_⟩
    cases hf : s.fetchDecode with
    | ok i => exact .inl ⟨i, rfl, rfl⟩
    | error e => exact .inr ⟨e, rfl, rfl⟩
  | waitingForKey x => exact .inr (.inl ⟨x, rfl, rfl⟩)
  | halted e => exact .inr (.inr ⟨e, rfl, rfl⟩)

/-! ### Keys -/

/-- The search for a new key finds none when none is newly pressed, else the least. -/
theorem State.newKey_cases (s : State) :
    (s.newKey = none ∧ ∀ k, ¬ s.NewlyPressed k) ∨
    (∃ k, s.newKey = some k ∧ s.NewlyPressed k ∧ ∀ j, j < k → ¬ s.NewlyPressed j) := by
  unfold State.newKey State.NewlyPressed
  cases h : (List.finRange 16).find? fun k => s.keyDown k && !s.keyWasDown k with
  | none =>
    refine .inl ⟨rfl, fun k hk => ?_⟩
    have := List.find?_eq_none.mp h k (List.mem_finRange k)
    simp [hk.1, hk.2] at this
  | some k =>
    obtain ⟨hk, as, bs, hl, has⟩ := List.find?_eq_some_iff_append.mp h
    refine .inr ⟨k, rfl, by simpa using hk, fun j hj hn => ?_⟩
    have hp : (as ++ k :: bs).Pairwise (· < ·) := hl ▸ List.pairwise_lt_finRange 16
    have hm : j ∈ as ++ k :: bs := hl ▸ List.mem_finRange j
    rcases List.mem_append.mp hm with hm | hm
    · have := has j hm
      simp [hn.1, hn.2] at this
    · rcases List.mem_cons.mp hm with rfl | hm
      · exact lt_irrefl _ hj
      · have := (List.pairwise_cons.mp (List.pairwise_append.mp hp).2.1).1 j hm
        exact lt_asymm hj this

/-- Everything a poll can do (46_random_timers_keywait.md R204). -/
theorem State.pollKey_cases (s : State) (x : Reg) :
    ((∀ k, ¬ s.NewlyPressed k) ∧ s.pollKey x = s.snapshotKeys) ∨
    (∃ k, s.NewlyPressed k ∧ (∀ j, j < k → ¬ s.NewlyPressed j) ∧
      s.pollKey x = ((s.setV x (BitVec.ofNat 8 k.val)).snapshotKeys.setExec .running).advance) := by
  unfold State.pollKey
  rcases s.newKey_cases with ⟨h, hn⟩ | ⟨k, h, hk, hl⟩
  · exact .inl ⟨hn, by rw [h]⟩
  · exact .inr ⟨k, hk, hl, by rw [h]⟩

/-! ### The meanings that may raise -/

theorem execCallNnn_cases (nnn : BitVec 12) (s : State) :
    (s.stack.length < 16 ∧ execCallNnn nnn s = .next ((s.setStack ((s.pc + 2#16) :: s.stack)).setPc (addrOperand nnn))) ∨
    (16 ≤ s.stack.length ∧ execCallNnn nnn s = .next (s.raise .stackOverflow)) := by
  unfold execCallNnn State.push stackDepth
  by_cases h : s.stack.length < 16
  · exact .inl ⟨h, by rw [if_pos h]; rfl⟩
  · exact .inr ⟨by omega, by rw [if_neg h]; rfl⟩

theorem execRet_cases (s : State) :
    (∃ a rest, s.stack = a :: rest ∧ execRet s = .next ((s.setStack rest).setPc a)) ∨
    (s.stack = [] ∧ execRet s = .next (s.raise .stackUnderflow)) := by
  unfold execRet State.pop
  cases h : s.stack with
  | nil => exact .inr ⟨rfl, rfl⟩
  | cons a rest => exact .inl ⟨a, rest, rfl, rfl⟩

theorem execLdBVx_cases (x : Reg) (s : State) :
    (s.i.toNat ≤ 0xFFD ∧ execLdBVx x s =
      .next (s.setMem (Memory.writeList s.mem s.i.toNat (bcdDigits (s.getV x)))).advance) ∨
    (0xFFD < s.i.toNat ∧ execLdBVx x s = .next (s.raise (.outOfBoundsMemoryAccess (max s.i.toNat 0x1000)))) := by
  unfold execLdBVx State.dataBase
  rcases s.storeBytes_cases s.i.toNat (bcdDigits (s.getV x)) with ⟨h, e⟩ | ⟨h, e⟩ <;>
    simp only [bcdDigits, List.length_cons, List.length_nil] at h <;> rw [e]
  · exact .inl ⟨by omega, rfl⟩
  · exact .inr ⟨by omega, rfl⟩

theorem execLdMemVx_cases (x : Reg) (s : State) :
    (s.i.toNat + x.val ≤ 0xFFF ∧ execLdMemVx x s =
      .next ((s.setMem (Memory.writeList s.mem s.i.toNat (s.getVRange x))).setI (s.indexAfterBlock x)).advance) ∨
    (0xFFF < s.i.toNat + x.val ∧
      execLdMemVx x s = .next (s.raise (.outOfBoundsMemoryAccess (max s.i.toNat 0x1000)))) := by
  unfold execLdMemVx State.dataBase
  rcases s.storeBytes_cases s.i.toNat (s.getVRange x) with ⟨h, e⟩ | ⟨h, e⟩ <;>
    rw [State.getVRange_length] at h <;> rw [e]
  · exact .inl ⟨by omega, rfl⟩
  · exact .inr ⟨by omega, rfl⟩

theorem execLdVxMem_cases (x : Reg) (s : State) :
    (s.i.toNat + x.val ≤ 0xFFF ∧ execLdVxMem x s =
      .next ((s.setVRange (Memory.readList s.mem s.i.toNat (x.val + 1))).setI (s.indexAfterBlock x)).advance) ∨
    (0xFFF < s.i.toNat + x.val ∧
      execLdVxMem x s = .next (s.raise (.outOfBoundsMemoryAccess (max s.i.toNat 0x1000)))) := by
  unfold execLdVxMem State.dataBase
  rcases s.loadBytes_cases s.i.toNat (x.val + 1) with ⟨h, e⟩ | ⟨h, e⟩ <;> rw [e]
  · exact .inl ⟨by omega, rfl⟩
  · exact .inr ⟨by omega, rfl⟩

theorem execDrwVxVyN_cases (x y : Reg) (n : Nat) (s : State) :
    ((n = 0 ∨ s.i.toNat + n ≤ 0x1000) ∧ ∃ drawn,
      drawn = drawRows s.cfg.drawEdge (s.spriteColumn x) (s.spriteRow y) (Memory.readList s.mem s.i.toNat n) (s.fb, false) ∧
      execDrwVxVyN x y n s = .next ((s.setFb drawn.1).setFlag (flagByte drawn.2)).advance) ∨
    ((0 < n ∧ 0x1000 < s.i.toNat + n) ∧
      execDrwVxVyN x y n s = .next (s.raise (.outOfBoundsMemoryAccess (max s.i.toNat 0x1000)))) := by
  unfold execDrwVxVyN State.dataBase
  rcases s.loadBytes_cases s.i.toNat n with ⟨h, e⟩ | ⟨h, e⟩ <;> rw [e]
  · exact .inl ⟨h, _, rfl, rfl⟩
  · exact .inr ⟨h, rfl⟩

/-! ### Pixels -/

/-- The pixels DRW flips are those of the closed form. -/
theorem State.mem_spriteHits_iff (s : State) (x y : Reg) (n : Nat) (px : Fin 64) (py : Fin 32) :
    (px, py) ∈ spriteHits s.cfg.drawEdge (s.spriteColumn x) (s.spriteRow y) (Memory.readList s.mem s.i.toNat n) ↔
      s.SpriteHits ((s.getV x).toNat % 64) ((s.getV y).toNat % s.cfg.drawYMod.value) n px py := by
  rw [mem_spriteHits]
  unfold State.SpriteHits
  constructor
  · rintro ⟨r, c, hr, hc, hb, e⟩
    rw [Memory.length_readList] at hr
    rw [Memory.getD_readList, if_pos hr] at hb
    rw [placePixel_eq_some] at e
    refine ⟨r, c, hr, hc, ?_, e⟩
    rw [spriteBit, BitVec.getLsbD, Nat.testBit_eq_decide_div_mod_eq] at hb
    simpa using hb
  · rintro ⟨r, c, hr, hc, hb, e⟩
    refine ⟨r, c, by simpa using hr, hc, ?_, (placePixel_eq_some _ _ _ _).mpr e⟩
    rw [Memory.getD_readList, if_pos hr, spriteBit, BitVec.getLsbD, Nat.testBit_eq_decide_div_mod_eq]
    simpa using hb

/-- Two displays that agree on every pixel are the same. -/
theorem Frame.ext {f g : Frame} (h : ∀ x y, Frame.get f x y = Frame.get g x y) : f = g := by
  apply Vector.ext
  intro y hy
  apply Vector.ext
  intro x hx
  exact h ⟨x, hx⟩ ⟨y, hy⟩

end Sys2Proof.Machine
end

