-- ==== Sys2Proof/Tests/Slice0.lean ====
section
/-! SUPPORT. The model's own tests. Expected values are those of spec/95_test_vectors.md (the vector's id stands at each test)
or of the rule named; a `witness_` theorem gives a state and operands that meet an obligation's hypotheses. -/

namespace Sys2Proof.Tests
open Sys2Proof.Machine

/-! ### Helpers -/

/-- What `f` sees of the state after an operation that went on. -/
def after {α : Type} (o : Host.Outcome State Fault Refusal) (f : State → α) : Option α :=
  match o with
  | .next t => some (f t)
  | .fault _ => none
  | .refused _ => none

/-- What is seen of the next state is seen of one. -/
theorem next_of_after {α : Type} {o : Host.Outcome State Fault Refusal} {f : State → α} {a : α} (h : after o f = some a) :
    ∃ t, o = .next t ∧ f t = a := by
  cases o with
  | next t => exact ⟨t, rfl, Option.some.inj h⟩
  | fault e => cases h
  | refused r => cases h

/-- One step of a word at PC. -/
def stepWord (s : State) (w : Nat) : Host.Outcome State Fault Refusal := step (s.withFetchWord 16 w)

/-- The reset state with some V registers, I, and bytes at an address. -/
def start (vs : List (Reg × Byte)) (i : Word) (a : Nat) (bytes : List Byte) : State :=
  let s := vs.foldl (fun s p => s.setV p.1 p.2) State.reset
  { s with i := i, mem := Memory.writeList s.mem a bytes }

/-- The reset state with some V registers. -/
def regs (vs : List (Reg × Byte)) : State := start vs 0 0x300 []

/-- The default configuration with every quirk on. -/
def allQuirks : Configuration :=
  { defaultConfig with shiftSrc := .vy, loadStoreIncI := true, jumpBase := .vx, drawEdge := .clip, logicResetsVf := true }

/-- A font whose glyph of digit F is a full block, the others blank. -/
def blockFont : Font := (Vector.replicate 16 (Vector.replicate 5 0x00#8)).set 15 (Vector.replicate 5 0xF0#8)

/-- The state under every quirk. -/
def quirky (s : State) : State := { s with cfg := allQuirks }

/-- A core that waits for a key into V3. -/
def waiting : State := { State.reset with exec := .waitingForKey 3 }

/-- A core halted by RET on an empty stack. -/
def halted : State := State.reset.raise .stackUnderflow

/-! ### WellFormed -/

theorem test_wellFormed_refuses_height_16 : (Instr.drwVxVyN 1 2 16).wellFormed = false := by decide

theorem test_wellFormed_admits_height_15 : (Instr.drwVxVyN 1 2 15).wellFormed = true := by decide

/-! ### Decode: words written out from the encodings of 30_encoding.md R90, every constructor once -/

theorem test_decode_flow :
    decodeTableWord 16 0b0000000011101110 = some .ret ∧
    decodeTableWord 16 0b0001001000110100 = some (.jpNnn 0x234#12) ∧
    decodeTableWord 16 0b0010001100000000 = some (.callNnn 0x300#12) ∧
    decodeTableWord 16 0b1011001011110000 = some (.jpV0Nnn 0x2F0#12) := by decide

theorem test_decode_skip :
    decodeTableWord 16 0b0011001100101010 = some (.seVxNn 3 0x2A#8) ∧
    decodeTableWord 16 0b0100001100101010 = some (.sneVxNn 3 0x2A#8) ∧
    decodeTableWord 16 0b0101000100100000 = some (.seVxVy 1 2) ∧
    decodeTableWord 16 0b1001000100100000 = some (.sneVxVy 1 2) ∧
    decodeTableWord 16 0b1110000010011110 = some (.skpVx 0) ∧
    decodeTableWord 16 0b1110000010100001 = some (.sknpVx 0) := by decide

theorem test_decode_alu :
    decodeTableWord 16 0b0110101000101011 = some (.ldVxNn 10 0x2B#8) ∧
    decodeTableWord 16 0b0111000100000011 = some (.addVxNn 1 0x03#8) ∧
    decodeTableWord 16 0b1000000100100000 = some (.ldVxVy 1 2) ∧
    decodeTableWord 16 0b1000000100100001 = some (.orVxVy 1 2) ∧
    decodeTableWord 16 0b1000000100100010 = some (.andVxVy 1 2) ∧
    decodeTableWord 16 0b1000000100100011 = some (.xorVxVy 1 2) ∧
    decodeTableWord 16 0b1000000000010100 = some (.addVxVy 0 1) ∧
    decodeTableWord 16 0b1000000100100101 = some (.subVxVy 1 2) ∧
    decodeTableWord 16 0b1000000100100110 = some (.shrVxVy 1 2) ∧
    decodeTableWord 16 0b1000000100100111 = some (.subnVxVy 1 2) ∧
    decodeTableWord 16 0b1000000100101110 = some (.shlVxVy 1 2) := by decide

theorem test_decode_index_memory :
    decodeTableWord 16 0b1010001011110000 = some (.ldINnn 0x2F0#12) ∧
    decodeTableWord 16 0b1111000100011110 = some (.addIVx 1) ∧
    decodeTableWord 16 0b1111001000101001 = some (.ldFVx 2) ∧
    decodeTableWord 16 0b1111001100110011 = some (.ldBVx 3) ∧
    decodeTableWord 16 0b1111001001010101 = some (.ldMemVx 2) ∧
    decodeTableWord 16 0b1111001001100101 = some (.ldVxMem 2) := by decide

theorem test_decode_display_random_timer_key :
    decodeTableWord 16 0b0000000011100000 = some .cls ∧
    decodeTableWord 16 0b1101000100100101 = some (.drwVxVyN 1 2 5) ∧
    decodeTableWord 16 0b1100001100001111 = some (.rndVxNn 3 0x0F#8) ∧
    decodeTableWord 16 0b1111010000000111 = some (.ldVxDt 4) ∧
    decodeTableWord 16 0b1111001100001010 = some (.ldVxK 3) ∧
    decodeTableWord 16 0b1111010000010101 = some (.ldDtVx 4) ∧
    decodeTableWord 16 0b1111010000011000 = some (.ldStVx 4) := by decide

/-- T-ERR-1 to T-ERR-17. -/
theorem test_decode_refuses :
    ([0xFFFF, 0x0000, 0x0123, 0x01E0, 0x00E1, 0x00EF, 0x5121, 0x9121, 0x8128, 0x812F, 0xE000, 0xE19F, 0xE1A0, 0xF000,
      0xF11F, 0xF108, 0xF166].all fun w => (decodeTableWord 16 w).isNone) = true := by decide

/-- Fewer than two bytes are no instruction (R80). -/
theorem test_decode_truncated : decode [0x60#8] = .error .truncated := by decide

/-! ### Reset -/

/-- R41's row of digit A, the last byte of the default font and the byte after it; then the glyphs of another font (R8). -/
theorem test_reset_font :
    Memory.readList State.reset.mem 0x082 5 = [0xF0#8, 0x90#8, 0xF0#8, 0x90#8, 0x90#8] ∧
    Memory.readList State.reset.mem 0x09F 2 = [0x80#8, 0x00#8] ∧
    Memory.readList (State.resetWith { defaultConfig with font := blockFont }).mem 0x09A 6 =
      [0x00#8, 0xF0#8, 0xF0#8, 0xF0#8, 0xF0#8, 0xF0#8] := by decide

/-! ### One step of each instruction -/

/-- T-FLOW-3. -/
theorem test_jp : after (stepWord State.reset 0x1FFF) (fun t => t.pc) = some 0xFFF#16 := by decide

/-- T-FLOW-5. -/
theorem test_call : after (stepWord State.reset 0x2300) (fun t => (t.pc, t.stack)) = some (0x300#16, [0x202#16]) := by decide

/-- T-FLOW-9. -/
theorem test_call_full :
    after (stepWord { State.reset with stack := List.replicate 16 0x202#16 } 0x2200) (fun t => (t.pc, t.stack.length, t.exec)) =
      some (0x200#16, 16, .halted .stackOverflow) := by decide

/-- T-FLOW-6. -/
theorem test_ret :
    after (stepWord { State.reset with stack := [0x202#16], pc := 0x300#16 } 0x00EE) (fun t => (t.pc, t.stack)) =
      some (0x202#16, []) := by decide

/-- T-FLOW-7. -/
theorem test_ret_empty :
    after (stepWord State.reset 0x00EE) (fun t => (t.pc, t.exec)) = some (0x200#16, .halted .stackUnderflow) := by decide

/-- T-FLOW-13. -/
theorem test_jp_v0 : after (stepWord (regs [(0, 0xFF)]) 0xBFFF) (fun t => t.pc) = some 0x10FE#16 := by decide

/-- T-FLOW-12. -/
theorem test_jp_vx :
    after (stepWord (quirky (regs [(0, 0x04), (2, 0x10)])) 0xB2F0) (fun t => t.pc) = some 0x300#16 := by decide

/-- T-SKIP-1 and T-SKIP-2. -/
theorem test_se_imm :
    after (stepWord (regs [(3, 0x2A)]) 0x332A) (fun t => t.pc) = some 0x204#16 ∧
    after (stepWord (regs [(3, 0x2B)]) 0x332A) (fun t => t.pc) = some 0x202#16 := by decide

/-- T-SKIP-3 and T-SKIP-4. -/
theorem test_sne_imm :
    after (stepWord (regs [(3, 0x2A)]) 0x432A) (fun t => t.pc) = some 0x202#16 ∧
    after (stepWord (regs [(3, 0x2B)]) 0x432A) (fun t => t.pc) = some 0x204#16 := by decide

/-- T-SKIP-5 and T-SKIP-6. -/
theorem test_se_reg :
    after (stepWord (regs [(1, 7), (2, 7)]) 0x5120) (fun t => t.pc) = some 0x204#16 ∧
    after (stepWord (regs [(1, 7), (2, 8)]) 0x5120) (fun t => t.pc) = some 0x202#16 := by decide

/-- T-SKIP-8 and T-SKIP-9. -/
theorem test_sne_reg :
    after (stepWord (regs [(1, 7), (2, 7)]) 0x9120) (fun t => t.pc) = some 0x202#16 ∧
    after (stepWord (regs [(1, 7), (2, 8)]) 0x9120) (fun t => t.pc) = some 0x204#16 := by decide

/-- T-SKIP-13 and T-SKIP-12. -/
theorem test_skp :
    after (stepWord { regs [(0, 0x15)] with key := State.reset.key.set 5 true } 0xE09E) (fun t => t.pc) = some 0x204#16 ∧
    after (stepWord (regs [(0, 0x05)]) 0xE09E) (fun t => t.pc) = some 0x202#16 := by decide

/-- T-SKIP-14 and T-SKIP-16. -/
theorem test_sknp :
    after (stepWord { regs [(0, 0x05)] with key := State.reset.key.set 5 true } 0xE0A1) (fun t => t.pc) = some 0x202#16 ∧
    after (stepWord (regs [(0, 0xF5)]) 0xE0A1) (fun t => t.pc) = some 0x204#16 := by decide

/-- T-ALU-1. -/
theorem test_ld_imm : after (stepWord State.reset 0x6A2B) (fun t => (t.getV 10, t.pc)) = some (0x2B#8, 0x202#16) := by decide

/-- T-ALU-3. -/
theorem test_add_imm_wraps :
    after (stepWord (regs [(1, 0xFE), (15, 0x07)]) 0x7103) (fun t => (t.getV 1, t.getV 15)) = some (0x01#8, 0x07#8) := by decide

/-- T-ALU-7. -/
theorem test_ld_reg : after (stepWord (regs [(2, 0x33)]) 0x8120) (fun t => (t.getV 1, t.getV 2)) = some (0x33#8, 0x33#8) := by
  decide

/-- T-ALU-8 and T-ALU-16. -/
theorem test_or :
    after (stepWord (regs [(1, 0x0C), (2, 0x0A), (15, 1)]) 0x8121) (fun t => (t.getV 1, t.getV 15)) = some (0x0E#8, 1#8) ∧
    after (stepWord (quirky (regs [(15, 0x0C), (2, 0x0A)])) 0x8F21) (fun t => t.getV 15) = some 0#8 := by decide

/-- T-ALU-10 and T-ALU-11. -/
theorem test_and :
    after (stepWord (regs [(1, 0x0C), (2, 0x0A), (15, 1)]) 0x8122) (fun t => (t.getV 1, t.getV 15)) = some (0x08#8, 1#8) ∧
    after (stepWord (quirky (regs [(1, 0x0C), (2, 0x0A), (15, 1)])) 0x8122) (fun t => (t.getV 1, t.getV 15)) =
      some (0x08#8, 0#8) := by decide

/-- T-ALU-12 and T-ALU-13. -/
theorem test_xor :
    after (stepWord (regs [(1, 0x0C), (2, 0x0A), (15, 1)]) 0x8123) (fun t => (t.getV 1, t.getV 15)) = some (0x06#8, 1#8) ∧
    after (stepWord (quirky (regs [(1, 0x0C), (2, 0x0A), (15, 1)])) 0x8123) (fun t => (t.getV 1, t.getV 15)) =
      some (0x06#8, 0#8) := by decide

/-- T-ALU-19 and T-ALU-24. -/
theorem test_add :
    after (stepWord (regs [(0, 0xFA), (1, 0x0A)]) 0x8014) (fun t => (t.getV 0, t.getV 15)) = some (0x04#8, 1#8) ∧
    after (stepWord (regs [(15, 0xC8), (1, 0x64)]) 0x8F14) (fun t => t.getV 15) = some 1#8 := by decide

/-- T-ALU-28 and T-ALU-30. -/
theorem test_sub :
    after (stepWord (regs [(1, 0x05), (2, 0x07)]) 0x8125) (fun t => (t.getV 1, t.getV 15)) = some (0xFE#8, 0#8) ∧
    after (stepWord (regs [(1, 0x07), (2, 0x07)]) 0x8125) (fun t => (t.getV 1, t.getV 15)) = some (0x00#8, 1#8) := by decide

/-- T-ALU-38 and T-ALU-39. -/
theorem test_subn :
    after (stepWord (regs [(1, 0x05), (2, 0x07)]) 0x8127) (fun t => (t.getV 1, t.getV 15)) = some (0x02#8, 1#8) ∧
    after (stepWord (regs [(1, 0x07), (2, 0x05)]) 0x8127) (fun t => (t.getV 1, t.getV 15)) = some (0xFE#8, 0#8) := by decide

/-- T-ALU-43 and T-ALU-44. -/
theorem test_shr :
    after (stepWord (regs [(1, 0x05), (2, 0x08)]) 0x8126) (fun t => (t.getV 1, t.getV 15)) = some (0x02#8, 1#8) ∧
    after (stepWord (quirky (regs [(1, 0x05), (2, 0x08)])) 0x8126) (fun t => (t.getV 1, t.getV 2, t.getV 15)) =
      some (0x04#8, 0x08#8, 0#8) := by decide

/-- T-ALU-51 and T-ALU-52. -/
theorem test_shl :
    after (stepWord (regs [(1, 0x81), (2, 0x40)]) 0x812E) (fun t => (t.getV 1, t.getV 15)) = some (0x02#8, 1#8) ∧
    after (stepWord (quirky (regs [(1, 0x81), (2, 0x40)])) 0x812E) (fun t => (t.getV 1, t.getV 15)) = some (0x80#8, 0#8) := by
  decide

/-- T-MEM-2. -/
theorem test_ld_i : after (stepWord State.reset 0xAFFF) (fun t => t.i) = some 0x0FFF#16 := by decide

/-- T-MEM-4. -/
theorem test_add_i_wraps :
    after (stepWord (start [(1, 1)] 0xFFFF#16 0x300 []) 0xF11E) (fun t => (t.i, t.getV 15)) = some (0#16, 0#8) := by decide

/-- T-MEM-9. -/
theorem test_ld_f : after (stepWord (regs [(2, 0x1A)]) 0xF229) (fun t => t.i) = some 0x0082#16 := by decide

/-- T-MEM-16. -/
theorem test_ld_b :
    after (stepWord (start [(3, 0x7B)] 0x0FFD#16 0x300 []) 0xF333) (fun t => Memory.readList t.mem 0xFFD 3) =
      some [1#8, 2#8, 3#8] := by decide

/-- T-MEM-17. -/
theorem test_ld_b_bound :
    after (stepWord (start [(3, 0x7B)] 0x0FFE#16 0x300 []) 0xF333)
      (fun t => (t.pc, t.exec, Memory.readList t.mem 0xFFE 2)) =
      some (0x200#16, .halted (.outOfBoundsMemoryAccess 0x1000), [0#8, 0#8]) := by decide

/-- T-MEM-20. -/
theorem test_ld_mem :
    after (stepWord (quirky (start [(0, 0x11), (1, 0x22), (2, 0x33), (3, 0x44)] 0x400#16 0x300 [])) 0xF255)
      (fun t => (t.i, Memory.readList t.mem 0x400 4)) = some (0x403#16, [0x11#8, 0x22#8, 0x33#8, 0x00#8]) := by decide

/-- T-MEM-25, with V0 alone set. -/
theorem test_ld_mem_bound :
    after (stepWord (start [(0, 0xA0)] 0x0FF1#16 0x300 []) 0xFF55) (fun t => (t.exec, Memory.read t.mem 0xFF1, t.i)) =
      some (.halted (.outOfBoundsMemoryAccess 0x1000), 0#8, 0x0FF1#16) := by decide

/-- T-MEM-26. -/
theorem test_ld_regs :
    after (stepWord (start [(3, 0x99)] 0x400#16 0x400 [0x11, 0x22, 0x33, 0x44]) 0xF265) (fun t => (t.v.toList.take 4, t.i)) =
      some ([0x11#8, 0x22#8, 0x33#8, 0x99#8], 0x400#16) := by decide

/-- T-MEM-31. -/
theorem test_ld_regs_bound :
    after (stepWord (start [] 0x1000#16 0x300 []) 0xF065) (fun t => t.exec) =
      some (.halted (.outOfBoundsMemoryAccess 0x1000)) := by decide

/-- T-DISP-1, with one pixel set. -/
theorem test_cls :
    after (stepWord { regs [(15, 1)] with fb := Frame.set Frame.blank 63 31 true } 0x00E0)
      (fun t => (Frame.get t.fb 63 31, t.getV 15)) = some (false, 1#8) := by decide

/-- T-DISP-4 and T-DISP-5: the glyph over the corner, wrapped and clipped. -/
theorem test_drw_edge :
    after (stepWord (start [(1, 62), (2, 30)] 0x82#16 0x300 []) 0xD125)
      (fun t => (Frame.get t.fb 62 30, Frame.get t.fb 1 30, Frame.get t.fb 2 30, Frame.get t.fb 0 0, t.getV 15)) =
      some (true, true, false, true, 0#8) ∧
    after (stepWord (quirky (start [(1, 62), (2, 30)] 0x82#16 0x300 [])) 0xD125)
      (fun t => (Frame.get t.fb 62 30, Frame.get t.fb 1 30, Frame.get t.fb 0 0)) = some (true, false, false) := by decide

/-- T-DISP-12: a collision. -/
theorem test_drw_collision :
    after (stepWord { start [(0, 1)] 0x300#16 0x300 [0xC0] with
        fb := Frame.set (Frame.set Frame.blank 0 0 true) 1 0 true } 0xD011)
      (fun t => (Frame.get t.fb 0 0, Frame.get t.fb 1 0, Frame.get t.fb 2 0, t.getV 15)) = some (true, false, true, 1#8) := by
  decide

/-- T-RND-1 and T-RND-2. -/
theorem test_rnd :
    after (stepWord { State.reset with randomIn := [0xB7#8] } 0xC30F) (fun t => (t.getV 3, t.randomIn)) = some (0x07#8, []) ∧
    after (stepWord { State.reset with randomIn := [0x55#8, 0x66#8] } 0xC300) (fun t => (t.getV 3, t.randomIn)) =
      some (0x00#8, [0x66#8]) := by decide

/-- T-TMR-1. -/
theorem test_ld_dt : after (stepWord { State.reset with dt := 0x3C#8 } 0xF407) (fun t => (t.getV 4, t.dt)) =
    some (0x3C#8, 0x3C#8) := by decide

/-- T-TMR-3. -/
theorem test_set_dt : after (stepWord (regs [(4, 0x3C)]) 0xF415) (fun t => (t.dt, t.st)) = some (0x3C#8, 0#8) := by decide

/-- T-TMR-5. -/
theorem test_set_st : after (stepWord (regs [(4, 0x02)]) 0xF418) (fun t => (t.dt, t.st, t.soundActive)) =
    some (0#8, 0x02#8, true) := by decide

/-- T-KEY-2. -/
theorem test_key_entry :
    after (stepWord { State.reset with key := State.reset.key.set 4 true } 0xF30A)
      (fun t => (t.pc, t.exec, t.keyWasDown 4, t.status)) = some (0x200#16, .waitingForKey 3, true, .waiting) := by decide

/-- S-KEY-5, operation 3: key 4 is held, key 9 is new. -/
theorem test_key_poll :
    after (step { waiting with key := (State.reset.key.set 4 true).set 9 true, kprev := State.reset.key.set 4 true })
      (fun t => (t.getV 3, t.pc, t.exec, t.status)) = some (0x09#8, 0x202#16, .running, .ok) := by decide

/-- T-ERR-1: an invalid word. -/
theorem test_invalid_word :
    after (stepWord (start [(1, 0x11)] 0x222#16 0x300 []) 0xFFFF) (fun t => (t.pc, t.getV 1, t.i, t.exec)) =
      some (0x200#16, 0x11#8, 0x222#16, .halted (.invalidOpcode 0x200#16 0xFFFF#16)) := by decide

/-- S-FETCH-1. -/
theorem test_fetch_above : after (step { State.reset with pc := 0xFFF#16 }) (fun t => (t.pc, t.exec)) =
    some (0xFFF#16, .halted (.outOfBoundsMemoryAccess 0xFFF)) := by decide

/-- 70_reset_and_hazards.md R232: a core that was reset and not loaded. -/
theorem test_step_unloaded : after (Sys2Proof.core.step Sys2Proof.core.reset) (fun t => t.exec) =
    some (.halted (.invalidOpcode 0x200#16 0x0000#16)) := by decide

/-! ### The driver's operations -/

/-- S-TMR-1, the first two ticks. -/
theorem test_tick : after (perform .tickTimers { State.reset with dt := 3#8, st := 1#8 })
    (fun t => (t.dt, t.st, t.tickTimers.st, t.soundActive)) = some (2#8, 0#8, 0#8, false) := by decide

/-- 40_step_cycle.md R120. -/
theorem test_set_key : after (perform (.setKey 15 true) State.reset) (fun t => (t.keyDown 15, t.keyDown 14)) =
    some (true, false) ∧ perform (.setKey 16 true) State.reset = .fault (.invalidKeyIndex 16) := ⟨by decide, rfl⟩

/-- 40_step_cycle.md R121. -/
theorem test_load : after (perform (.load [0x12#8, 0x00#8]) State.reset) (fun t => Memory.readList t.mem 0x1FF 4) =
    some [0#8, 0x12#8, 0#8, 0#8] := by decide

/-- X8. -/
theorem test_load_too_large (bytes : List Byte) (h : bytes.length = 3585) :
    perform (.load bytes) State.reset = .fault .romTooLarge := by
  simp [perform, State.loadRom, maxRom, reported, h]

/-! ### Witnesses for the hypotheses of the obligations -/

theorem witness_EntryPointAfterReset :
    (0x602A#16).toNat = (Memory.read (Memory.writeList [] 0x200 [0x60, 0x2A]) 0x200).toNat * 256 +
      (Memory.read (Memory.writeList [] 0x200 [0x60, 0x2A]) 0x201).toNat ∧
    decodeWord 0x602A#16 = some (.ldVxNn 0 0x2A#8) := by decide

/-- Both edges of the font region and the addresses beside them. -/
theorem witness_ResetClearsEverythingElse :
    Memory.read State.reset.mem 0x04F = 0#8 ∧ Memory.read State.reset.mem 0x050 = 0xF0#8 ∧
    Memory.read State.reset.mem 0x09F = 0x80#8 ∧ Memory.read State.reset.mem 0x0A0 = 0#8 := by decide

theorem reset_inv : State.reset.Inv :=
  ⟨rfl, Nat.zero_le 16, (fun _ h => nomatch h), (by decide : (0x200#16).toNat ≤ 0x10FE), rfl⟩

/-- The reset state meets the invariant, and a state at each of its bounds does. -/
theorem witness_StepKeepsInvariant :
    (State.reset.Inv ∧ ∃ t, step State.reset = .next t ∧ t.pc = 0x200#16) ∧
    State.Inv { State.reset with stack := List.replicate 16 0x1000#16, pc := 0x10FE#16, mem := [(0xFFF, 1#8)] } :=
  ⟨⟨reset_inv, next_of_after (f := fun t => t.pc) (by decide)⟩, rfl, by decide,
    (fun a h => by rw [List.eq_of_mem_replicate h]; decide), (by decide : (0x10FE#16).toNat ≤ 0x10FE), rfl⟩

theorem witness_EveryScheduleKeepsInvariant : State.reset.Inv := reset_inv

theorem witness_StepRunsDecodedInstruction :
    let s := State.withFetchWord { State.reset with pc := 0xFFE#16 } 16 0x6001
    s.exec = .running ∧ s.pc.toNat ≤ 0xFFE ∧ (Instr.ldVxNn 0 1#8).wellFormed = true ∧
    decode [Memory.read s.mem s.pc.toNat, Memory.read s.mem (s.pc.toNat + 1)] = .ok (.ldVxNn 0 1#8, []) := by decide

/-- Each clause at its boundary: PC 0xFFF, an invalid word at 0xFFE, a valid one there. -/
theorem witness_FetchThenDecode :
    (({ State.reset with pc := 0xFFF#16 } : State).exec = .running ∧ (0xFFF#16).toNat > 0xFFE) ∧
    ((0x0000#16).toNat = ({ State.reset with pc := 0xFFE#16 } : State).wordAt 0xFFE ∧ decodeWord 0x0000#16 = none) ∧
    ((0x6001#16).toNat = (State.withFetchWord { State.reset with pc := 0xFFE#16 } 16 0x6001).wordAt 0xFFE ∧
      decodeWord 0x6001#16 = some (.ldVxNn 0 1#8)) := by decide

theorem witness_HaltedStepsAreNoOps : halted.exec = .halted .stackUnderflow := by decide

theorem witness_RaisingStepChangesOnlyExec :
    ∃ t, stepWord State.reset 0x00EE = .next t ∧ t.exec = .halted .stackUnderflow :=
  next_of_after (f := fun t => t.exec) (by decide)

/-- A step from each state of EXEC. -/
theorem witness_ExecutorTransitions :
    (State.reset.exec = .running ∧ ∃ t, step State.reset = .next t ∧ t.exec = .halted (.invalidOpcode 0x200#16 0#16)) ∧
    (waiting.exec = .waitingForKey 3 ∧ ∃ t, step waiting = .next t ∧ t.exec = .waitingForKey 3) ∧
    (halted.exec = .halted .stackUnderflow ∧ ∃ t, step halted = .next t ∧ t.exec = .halted .stackUnderflow) :=
  ⟨⟨rfl, next_of_after (f := fun t => t.exec) (by decide)⟩, ⟨rfl, next_of_after (f := fun t => t.exec) (by decide)⟩,
    rfl, next_of_after (f := fun t => t.exec) (by decide)⟩

theorem witness_OnlyResetLeavesHalted :
    halted.exec = .halted .stackUnderflow ∧ ∀ cfg, Op.tickTimers ≠ .reset cfg := ⟨by decide, (fun _ h => nomatch h)⟩

/-- An ordinary instruction that completes, and one that raises. -/
theorem witness_OrdinaryInstructionsAdvanceByTwo :
    ((Instr.ldVxNn 0 1#8).ordinary = true ∧ ∃ t, exec (.ldVxNn 0 1#8) State.reset = .next t) ∧
    ((Instr.ldBVx 0).ordinary = true ∧
      ∃ t, exec (.ldBVx 0) { State.reset with i := 0xFFE#16 } = .next t ∧ t.exec = .halted (.outOfBoundsMemoryAccess 0x1000)) :=
  ⟨⟨rfl, _, rfl⟩, rfl, _, rfl, by decide⟩

theorem witness_RegistersWrittenAreTheTables :
    (∃ t, exec (.addVxVy 1 2) State.reset = .next t) ∧ (Instr.addVxVy 1 2).writesV State.reset.cfg 2 = false :=
  ⟨⟨_, rfl⟩, by decide⟩

/-- A writer of the display, of the stack and of I. -/
theorem witness_WritersOfDisplayStackAndIndex :
    (∃ t, exec .cls { State.reset with fb := Frame.set Frame.blank 0 0 true } = .next t ∧
      t.fb ≠ Frame.set Frame.blank 0 0 true) ∧
    (∃ t, exec (.callNnn 0x300#12) State.reset = .next t ∧ t.stack ≠ State.reset.stack) ∧
    (∃ t, exec (.ldVxMem 0) (quirky State.reset) = .next t ∧ t.i ≠ (quirky State.reset).i) :=
  ⟨⟨_, rfl, by decide⟩, ⟨_, rfl, by decide⟩, ⟨_, rfl, by decide⟩⟩

/-- Both storing instructions, at the last address they can reach. -/
theorem witness_OnlyTwoInstructionsStore :
    (∃ t, exec (.ldBVx 3) (start [(3, 0x7B)] 0xFFD#16 0x300 []) = .next t ∧
      Memory.read t.mem 0xFFF ≠ Memory.read (start [(3, 0x7B)] 0xFFD#16 0x300 []).mem 0xFFF) ∧
    (∃ t, exec (.ldMemVx 15) (start [(15, 1)] 0xFF0#16 0x300 []) = .next t ∧
      Memory.read t.mem 0xFFF ≠ Memory.read (start [(15, 1)] 0xFF0#16 0x300 []).mem 0xFFF) :=
  ⟨⟨_, rfl, by decide⟩, ⟨_, rfl, by decide⟩⟩

theorem witness_StepLeavesKeysConfigTimersRandom :
    (∃ t, stepWord State.reset 0x6001 = .next t ∧ t.getV 0 = 1#8) ∧
    (State.reset.withFetchWord 16 0x6001).fetchDecode = .ok (.ldVxNn 0 1#8) :=
  ⟨next_of_after (f := fun t => t.getV 0) (by decide), by decide⟩

theorem witness_ConfigurationReachesNineInstructions :
    (Instr.addVxVy 1 2).dependsOnConfig = false ∧ ∃ t, exec (.addVxVy 1 2) State.reset = .next t := ⟨rfl, _, rfl⟩

theorem witness_TicksCommuteWithInstructions :
    (∀ x, Instr.addVxVy 1 2 ≠ .ldVxDt x) ∧ (∀ x, Instr.addVxVy 1 2 ≠ .ldDtVx x) ∧ (∀ x, Instr.addVxVy 1 2 ≠ .ldStVx x) ∧
    ∃ t, exec (.addVxVy 1 2) State.reset = .next t :=
  ⟨(fun _ h => nomatch h), (fun _ h => nomatch h), (fun _ h => nomatch h), _, rfl⟩

theorem witness_DisplayIsHiddenFromOtherInstructions :
    (∀ x y n, Instr.addVxVy 1 2 ≠ .drwVxVyN x y n) ∧ ∃ t, exec (.addVxVy 1 2) State.reset = .next t :=
  ⟨(fun _ _ _ h => nomatch h), _, rfl⟩

theorem witness_DecodeOfEncode : (Instr.drwVxVyN 15 15 15).wellFormed = true ∧ (Instr.drwVxVyN 0 0 0).wellFormed = true := by
  decide

theorem witness_EncodeOfDecode : decodeWord 0xDFFF#16 = some (.drwVxVyN 15 15 15) := by decide

/-- Both sides of the bound. -/
theorem witness_ByteReadAfterWrite : 0x1000 > 0xFFF ∧ 0xFFF ≤ 0xFFF ∧ 0xFFE ≠ 0xFFF := by decide

theorem witness_EqualBytesEqualMemories :
    Memory.wf [(0x000, 1#8), (0xFFF, 2#8)] = true ∧
    Memory.wf (Memory.write (Memory.write [] 0xFFF 2#8) 0x000 1#8) = true ∧
    ∀ a, a ≤ 0xFFF → Memory.read [(0x000, 1#8), (0xFFF, 2#8)] a =
      Memory.read (Memory.write (Memory.write [] 0xFFF 2#8) 0x000 1#8) a :=
  ⟨by decide, by decide, fun _ _ => rfl⟩

theorem witness_StoredWordIsFetchedNext :
    State.reset.exec = .running ∧ State.reset.pc.toNat ≤ 0xFFE ∧ decodeWord 0x602A#16 = some (.ldVxNn 0 0x2A#8) ∧
    ∃ t u, State.reset.memWrite State.reset.pc.toNat (BitVec.ofNat 8 ((0x602A#16).toNat / 256)) = .ok t ∧
      t.memWrite (State.reset.pc.toNat + 1) (BitVec.ofNat 8 (0x602A#16).toNat) = .ok u :=
  ⟨by decide, by decide, by decide, _, _, rfl, rfl⟩

/-- 15 entries, the most a call can find, and 16. -/
theorem witness_CallPushesReturnAddress :
    ({ State.reset with stack := List.replicate 15 0x202#16 } : State).stack.length < 16 ∧
    16 ≤ ({ State.reset with stack := List.replicate 16 0x202#16 } : State).stack.length := by decide

theorem witness_ReturnPopsIntoPc :
    ({ State.reset with stack := [0x202#16] } : State).stack = 0x202#16 :: [] ∧ State.reset.stack = [] := by decide

theorem witness_IndexedJumpAddsRegister :
    State.reset.cfg.jumpBase = .v0 ∧ (quirky State.reset).cfg.jumpBase = .vx ∧
    (15 : Reg).val = (0xFFF#12).toNat / 256 ∧ (0 : Reg).val = (0x000#12).toNat / 256 := by decide

theorem witness_ReturnUndoesCall :
    ({ State.reset with stack := List.replicate 15 0x202#16 } : State).stack.length < 16 := by decide

theorem witness_SkipComparesImmediate :
    ((regs [(3, 0xFF)]).getV 3).toNat = (0xFF#8).toNat ∧ ((regs [(3, 0xFE)]).getV 3).toNat ≠ (0xFF#8).toNat := by decide

theorem witness_SkipComparesRegisters :
    ((regs [(1, 7), (2, 7)]).getV 1).toNat = ((regs [(1, 7), (2, 7)]).getV 2).toNat ∧
    ((regs [(1, 7), (2, 8)]).getV 1).toNat ≠ ((regs [(1, 7), (2, 8)]).getV 2).toNat := by decide

/-- Key 15 through a register above 15, down and up. -/
theorem witness_SkipTestsKey :
    ((regs [(0, 0xFF)]).getV 0).toNat % 16 = (15 : Key).val ∧
    ({ regs [(0, 0xFF)] with key := State.reset.key.set 15 true } : State).keyDown 15 = true ∧
    (regs [(0, 0xFF)]).keyDown 15 = false := by decide

/-- The result kept (any x, the reset off; x below 15, the reset on) and lost (x = 15, the reset on). -/
theorem witness_LogicBitByBit :
    (Instr.orVxVy 15 1 = .orVxVy 15 1 ∧ State.reset.cfg.logicResetsVf = false) ∧ ((14 : Reg) ≠ 15) ∧
    (quirky State.reset).cfg.logicResetsVf = true := by decide

/-- A register other than the destination, as LoadImmediate, CopyRegister, AddImmediateWrapsWithoutFlag, RandomByteIsMasked and
TimersReadAndWritten suppose. -/
theorem witness_OtherRegister : (14 : Reg) ≠ 15 ∧ (15 : Reg) ≠ 0 := by decide

theorem witness_AddSetsCarry : (14 : Reg) ≠ 15 ∧ (13 : Reg) ≠ 14 := by decide

/-- Equal operands, the least for no borrow, and one below. -/
theorem witness_SubtractSetsNoBorrow :
    (Instr.subVxVy 1 2 = .subVxVy 1 2 ∧ 7#8 = (regs [(1, 7), (2, 7)]).getV 1 ∧ 7#8 = (regs [(1, 7), (2, 7)]).getV 2 ∧
      (7#8).toNat ≥ (7#8).toNat) ∧
    (Instr.subnVxVy 1 2 = .subnVxVy 1 2 ∧ 6#8 = (regs [(1, 7), (2, 6)]).getV 2 ∧ 7#8 = (regs [(1, 7), (2, 6)]).getV 1 ∧
      (6#8).toNat < (7#8).toNat) := by decide

theorem witness_ShiftByOneSetsBitOut :
    (State.reset.cfg.shiftSrc = .vx ∧ 5 = ((regs [(1, 5), (2, 8)]).getV 1).toNat) ∧
    ((quirky State.reset).cfg.shiftSrc = .vy ∧ 8 = ((quirky (regs [(1, 5), (2, 8)])).getV 2).toNat) := by decide

theorem witness_DecimalDigitsStored :
    (start [] 0xFFD#16 0 []).i.toNat ≤ 0xFFD ∧ 0xFFD < (start [] 0xFFE#16 0 []).i.toNat := by decide

/-- Both sides of the bound, for one register and for all sixteen, under both settings of the increment. -/
theorem witness_RegistersStoredFromIndex :
    (start [] 0xFFF#16 0 []).i.toNat + (0 : Reg).val ≤ 0xFFF ∧ (start [] 0xFF0#16 0 []).i.toNat + (15 : Reg).val ≤ 0xFFF ∧
    0xFFF < (start [] 0x1000#16 0 []).i.toNat + (0 : Reg).val ∧ 0xFFF < (start [] 0xFF1#16 0 []).i.toNat + (15 : Reg).val ∧
    State.reset.cfg.loadStoreIncI = false ∧ (quirky State.reset).cfg.loadStoreIncI = true := by decide

theorem witness_RegistersLoadedFromIndex :
    (start [] 0xFFF#16 0 []).i.toNat + (0 : Reg).val ≤ 0xFFF ∧ (start [] 0xFF0#16 0 []).i.toNat + (15 : Reg).val ≤ 0xFFF ∧
    (14 : Reg) < 15 ∧
    0xFFF < (start [] 0x1000#16 0 []).i.toNat + (0 : Reg).val ∧ 0xFFF < (start [] 0xFF1#16 0 []).i.toNat + (15 : Reg).val ∧
    State.reset.cfg.loadStoreIncI = false ∧ (quirky State.reset).cfg.loadStoreIncI = true := by decide

theorem witness_LoadRestoresStoredRegisters :
    (start [(15, 1)] 0xFF0#16 0x300 []).i.toNat + (15 : Reg).val ≤ 0xFFF ∧
    ∃ t, exec (.ldMemVx 15) (start [(15, 1)] 0xFF0#16 0x300 []) = .next t ∧
      ∃ v, exec (.ldVxMem 15) { State.reset with mem := t.mem, i := 0xFF0#16 } = .next v :=
  ⟨by decide, _, rfl, _, rfl⟩

/-- Both sides of the bound, and no rows; a pixel that is hit at the last row and column, under wrap and under clip. -/
theorem witness_DrawInvertsPixelsUnderSprite :
    15 ≤ 15 ∧ (start [] 0xFF1#16 0 []).i.toNat + 15 - 1 ≤ 0xFFF ∧ (0 < 15 ∧ (start [] 0xFF2#16 0 []).i.toNat + 15 - 1 > 0xFFF) ∧
    (start [] 0x300#16 0x300 [0x01]).SpriteHits 56 31 1 63 31 ∧
    (quirky (start [] 0x300#16 0x300 [0x01])).SpriteHits 56 31 1 63 31 ∧
    (start [] 0x300#16 0x300 [0x01]).SpriteHits 57 31 1 0 31 ∧
    ¬ (quirky (start [] 0x300#16 0x300 [0x01])).SpriteHits 57 31 1 0 31 := by
  refine ⟨by decide, by decide, by decide, ⟨0, 7, by decide⟩, ⟨0, 7, by decide⟩, ⟨0, 7, by decide⟩, ?_⟩
  rintro ⟨r, c, -, -, -, -, h⟩
  exact absurd (h (by decide)).1 (by show ¬ 57 + c = 0; omega)

theorem witness_RowModulusInvisibleUnderWrap :
    15 ≤ 15 ∧ State.reset.cfg.drawEdge = .wrap ∧
    (∃ t, exec (.drwVxVyN 0 1 15) { State.reset with cfg := { State.reset.cfg with drawYMod := .rows32 } } = .next t) ∧
    (∃ u, exec (.drwVxVyN 0 1 15) { State.reset with cfg := { State.reset.cfg with drawYMod := .rows64 } } = .next u) :=
  ⟨by decide, by decide, ⟨_, rfl⟩, _, rfl⟩

theorem witness_DrawingTwiceRestoresDisplay :
    15 ≤ 15 ∧ (14 : Reg) ≠ 15 ∧ (0 : Reg) ≠ 15 ∧ (start [] 0xFF1#16 0 []).i.toNat + 15 ≤ 0x1000 := by decide

/-- A draw that finds no supplied byte, and one that finds one. -/
theorem witness_RandomByteIsMasked :
    (State.reset.randomIn = [] ∧ Config.randomByte State.reset.draws = Config.randomByte State.reset.draws) ∧
    ∃ rest, ({ State.reset with randomIn := [0xB7#8] } : State).randomIn = 0xB7#8 :: rest := ⟨⟨rfl, rfl⟩, [], rfl⟩

/-- No new key; and keys 2 and 9 new at once, of which 2 is the least. -/
theorem witness_KeyWaitPoll :
    waiting.exec = .waitingForKey 3 ∧ (∀ k, ¬ waiting.NewlyPressed k) ∧
    let s : State := { waiting with key := (State.reset.key.set 2 true).set 9 true }
    s.exec = .waitingForKey 3 ∧ s.NewlyPressed 2 ∧ ∀ j, j < 2 → ¬ s.NewlyPressed j := by
  simp only [State.NewlyPressed]; decide

theorem witness_KeyWaitEndsAtPress :
    waiting.exec = .waitingForKey 3 ∧ (∀ j, waiting.keyDown j = false) ∧ 1 ≤ 1 := by decide

/-- A schedule of two ticks around a step that executes LD V0, 1. -/
theorem witness_TicksLowerTimersToZero :
    (∀ cfg, Op.reset cfg ∉ [Op.tickTimers, .step, .tickTimers]) ∧
    ∀ before after, [Op.tickTimers, .step, .tickTimers] = before ++ .step :: after →
      (afterOps (State.reset.withFetchWord 16 0x6001) before).exec = .running →
      ∀ x, (afterOps (State.reset.withFetchWord 16 0x6001) before).fetchDecode ≠ .ok (.ldDtVx x) ∧
        (afterOps (State.reset.withFetchWord 16 0x6001) before).fetchDecode ≠ .ok (.ldStVx x) := by
  refine ⟨by simp, fun before after h _ x => ?_⟩
  have hb : before = [.tickTimers] := by
    match before, h with
    | [], h => simp at h
    | [_], h => simp at h; simp [h.1]
    | _ :: _ :: [], h => simp at h
    | _ :: _ :: _ :: _, h => simp at h
  have hd : (afterOps (State.reset.withFetchWord 16 0x6001) [.tickTimers]).fetchDecode = .ok (.ldVxNn 0 1#8) := by decide
  rw [hb, hd]
  exact ⟨(fun e => nomatch e), (fun e => nomatch e)⟩

/-- The last key, and the first index that is none. -/
theorem witness_SetKeyWritesOneFlag : (15 : Key).val = 15 ∧ 15 < 16 := by decide

theorem witness_LoadWritesProgramOnly :
    (List.replicate 3584 (0x12#8 : Byte)).length ≤ 3584 ∧ 3584 < (List.replicate 3585 (0x12#8 : Byte)).length := by
  rw [List.length_replicate, List.length_replicate]
  decide

end Sys2Proof.Tests
end

section
/-! PROOFS. The byte accesses of 20_memory.md: what each answers on either side of 0xFFF, and what a read finds after a write. -/

namespace Sys2Proof.Machine

/-! ### The byte accesses by the bound (20_memory.md R52, R53) -/

theorem State.memRead_of_gt (s : State) {a : Nat} (h : a > 0xFFF) : s.memRead a = .error (.outOfBoundsMemoryAccess a) :=
  if_pos h

theorem State.memRead_of_le (s : State) {a : Nat} (h : a ≤ 0xFFF) : s.memRead a = .ok (Memory.read s.mem a) :=
  if_neg (Nat.not_lt.mpr h)

theorem State.memWrite_of_gt (s : State) {a : Nat} (b : Byte) (h : a > 0xFFF) :
    s.memWrite a b = .error (.outOfBoundsMemoryAccess a) :=
  if_pos h

theorem State.memWrite_of_le (s : State) {a : Nat} (b : Byte) (h : a ≤ 0xFFF) :
    s.memWrite a b = .ok (s.setMem (Memory.write s.mem a b)) :=
  if_neg (Nat.not_lt.mpr h)

/-! ### A byte read after a byte write -/

theorem State.memRead_setMem_write_same (s : State) {a : Nat} (b : Byte) (h : a ≤ 0xFFF) :
    (s.setMem (Memory.write s.mem a b)).memRead a = .ok b := by
  rw [State.memRead_of_le _ h, State.setMem_mem, Memory.read_write, if_pos rfl]

/-- The other address may lie above 0xFFF: both reads then raise the same error. -/
theorem State.memRead_setMem_write_ne (s : State) {a c : Nat} (b : Byte) (h : c ≠ a) :
    (s.setMem (Memory.write s.mem a b)).memRead c = s.memRead c := by
  unfold State.memRead
  rw [State.setMem_mem, Memory.read_write, if_neg h]

/-- Settles O25: the bound decides both accesses, and below it the write is `setMem` of a memory that differs at `a` alone. -/
theorem byteReadAfterWrite : Obligations.ByteReadAfterWrite := by
  intro s a b
  constructor
  · intro above
    exact ⟨s.memRead_of_gt above, s.memWrite_of_gt b above⟩
  · intro inside
    exact ⟨s.memRead_of_le inside, _, s.memWrite_of_le b inside, rfl,
      s.memRead_setMem_write_same b inside, fun _ other => s.memRead_setMem_write_ne b other⟩

end Sys2Proof.Machine
end

section
/-! PROOFS. The answers of the operations (40_step_cycle.md R116, R124): a halted step is a no-op, a step always answers a next
state, and load and set_key answer by their bound. -/

namespace Sys2Proof.Machine

/-! ### Schedules -/

theorem afterOp_of_next {s t : State} {op : Op} (h : perform op s = .next t) : afterOp s op = t := by
  unfold afterOp
  rw [h]

@[simp] theorem afterOps_nil (s : State) : afterOps s [] = s := rfl

@[simp] theorem afterOps_cons (s : State) (op : Op) (ops : List Op) :
    afterOps s (op :: ops) = afterOps (afterOp s op) ops := rfl

/-- An operation that leaves a state as it is leaves it so any number of times. -/
theorem afterOps_replicate_of_fixed {s : State} {op : Op} (h : afterOp s op = s) (n : Nat) :
    afterOps s (List.replicate n op) = s := by
  induction n with
  | zero => rfl
  | succ n ih => rw [List.replicate_succ, afterOps_cons, h, ih]

/-! ### The halted core (R116, R117) -/

theorem step_of_halted {s : State} {e : Fault} (h : s.exec = .halted e) : step s = .next s := by
  unfold step
  rw [h]

theorem State.status_of_halted {s : State} {e : Fault} (h : s.exec = .halted e) : s.status = .error e := by
  unfold State.status
  rw [h]

/-- Settles O8: the halted state is a fixed point of the step, so every schedule of steps ends in it, with its status. -/
theorem haltedStepsAreNoOps : Obligations.HaltedStepsAreNoOps := by
  intro s e n halted
  have fixed : afterOps s (List.replicate n .step) = s :=
    afterOps_replicate_of_fixed (afterOp_of_next (op := .step) (step_of_halted halted)) n
  exact ⟨step_of_halted halted, fixed, by rw [fixed, State.status_of_halted halted]⟩

/-! ### A step answers a next state -/

/-- Raising is no fault of the model: trap entry is a next state (60_exceptions.md R217). -/
theorem State.complete_answers_next (s : State) (r : Except Fault State) : ∃ t, s.complete r = .next t := by
  cases r with
  | ok t => exact ⟨t, rfl⟩
  | error e => exact ⟨s.raise e, rfl⟩

/-- Six instructions may raise, and end in `State.complete`; every other one answers its next state outright. -/
theorem exec_answers_next (i : Instr) (s : State) : ∃ t, exec i s = .next t := by
  cases i with
  | ret => exact s.complete_answers_next _
  | callNnn nnn => exact s.complete_answers_next _
  | drwVxVyN x y n => exact s.complete_answers_next _
  | ldBVx x => exact s.complete_answers_next _
  | ldMemVx x => exact s.complete_answers_next _
  | ldVxMem x => exact s.complete_answers_next _
  | _ => exact ⟨_, rfl⟩

theorem step_answers_next (s : State) : ∃ t, step s = .next t := by
  rcases step_cases s with ⟨-, ⟨i, -, runs⟩ | ⟨e, -, traps⟩⟩ | ⟨x, -, polls⟩ | ⟨e, -, stays⟩
  · rw [runs]
    exact exec_answers_next i s
  · exact ⟨_, traps⟩
  · exact ⟨_, polls⟩
  · exact ⟨_, stays⟩

/-! ### load and set_key by their bound (R120, R121) -/

theorem perform_load_of_gt (s : State) {bytes : List Byte} (h : bytes.length > maxRom) :
    perform (.load bytes) s = .fault .romTooLarge :=
  congrArg reported (if_pos h)

theorem perform_load_of_le (s : State) {bytes : List Byte} (h : bytes.length ≤ maxRom) :
    perform (.load bytes) s = .next (s.setMem (Memory.writeList s.mem progBase bytes)) :=
  congrArg reported (if_neg (Nat.not_lt.mpr h))

theorem perform_setKey_of_lt (s : State) {index : Nat} (pressed : Bool) (h : index < 16) :
    perform (.setKey index pressed) s = .next { s with key := s.key.set index pressed h } :=
  congrArg reported (dif_pos h)

theorem perform_setKey_of_ge (s : State) {index : Nat} (pressed : Bool) (h : 16 ≤ index) :
    perform (.setKey index pressed) s = .fault (.invalidKeyIndex index) :=
  congrArg reported (dif_neg (Nat.not_lt.mpr h))

/-- Settles O9, operation by operation: only load and set_key can report an error, and each only beyond its bound. -/
theorem everyOperationIsEnabled : Obligations.EveryOperationIsEnabled := by
  refine ⟨step_answers_next, fun s op => ?_⟩
  cases op with
  | reset cfg => exact .inl ⟨_, rfl⟩
  | load bytes =>
    rcases Nat.lt_or_ge maxRom bytes.length with tooLarge | fits
    · exact .inr (.inl ⟨perform_load_of_gt s tooLarge, bytes, rfl⟩)
    · exact .inl ⟨_, perform_load_of_le s fits⟩
  | step => exact .inl (step_answers_next s)
  | tickTimers => exact .inl ⟨_, rfl⟩
  | setKey index pressed =>
    rcases Nat.lt_or_ge index 16 with isKey | noKey
    · exact .inl ⟨_, perform_setKey_of_lt s pressed isKey⟩
    · exact .inr (.inr ⟨index, pressed, rfl, perform_setKey_of_ge s pressed noKey⟩)
  | supplyRandom b => exact .inl ⟨_, rfl⟩

end Sys2Proof.Machine
end

section
/-! PROOFS. Register load and addition (43_alu.md R160, R166): the word of each, the registers after it, and the carry as a
number. -/

namespace Sys2Proof.Machine

/-! ### The words 6XNN and 8XY4 -/

theorem decodeWord_ofNat_ldVxNn (x : Reg) (nn : Byte) :
    decodeWord (BitVec.ofNat 16 (0x6000 + x.val * 0x100 + nn.toNat)) = some (.ldVxNn x nn) := by
  have word : encodeWord (.ldVxNn x nn) = BitVec.ofNat 16 (0x6000 + x.val * 0x100 + nn.toNat) := formatXNN_eq 0x6#4 x nn
  rw [← word]
  exact Laws.RoundTrip.ldVxNn x nn rfl

/-- The pattern 0x8004 of R90 holds the sub-opcode 4, the last digit of the word, in its first summand. -/
theorem decodeWord_ofNat_addVxVy (x y : Reg) :
    decodeWord (BitVec.ofNat 16 (0x8004 + x.val * 0x100 + y.val * 0x10)) = some (.addVxVy x y) := by
  have word : encodeWord (.addVxVy x y) = BitVec.ofNat 16 (0x8000 + x.val * 0x100 + y.val * 0x10 + 4) :=
    formatXYN_eq 0x8#4 x y 0x4#4
  rw [show 0x8004 + x.val * 0x100 + y.val * 0x10 = 0x8000 + x.val * 0x100 + y.val * 0x10 + 4 by omega, ← word]
  exact Laws.RoundTrip.addVxVy x y rfl

/-! ### What the two instructions answer -/

theorem exec_ldVxNn (x : Reg) (nn : Byte) (s : State) : exec (.ldVxNn x nn) s = .next (s.setV x nn).advance := rfl

theorem exec_addVxVy (x y : Reg) (s : State) :
    exec (.addVxVy x y) s =
      .next (s.setVFlag x (s.getV x + s.getV y) (carryFlag (s.getV x) (s.getV y))).advance := rfl

/-! ### Registers after a result and its flag (R171) -/

/-- The flag is written last, so VF holds it also when it is the destination of the result. -/
@[simp] theorem State.getV_setVFlag_flag (s : State) (x : Reg) (r f : Byte) : (s.setVFlag x r f).getV 15 = f := by
  rw [State.getV_setVFlag, if_pos rfl]

theorem State.getV_setVFlag_result (s : State) {x : Reg} (r f : Byte) (h : x ≠ 15) : (s.setVFlag x r f).getV x = r := by
  rw [State.getV_setVFlag, if_neg h, if_pos rfl]

theorem State.getV_setVFlag_other (s : State) {x k : Reg} (r f : Byte) (hx : k ≠ x) (hf : k ≠ 15) :
    (s.setVFlag x r f).getV k = s.getV k := by
  rw [State.getV_setVFlag, if_neg hf, if_neg hx]

/-! ### The carry -/

/-- Two bytes sum to less than 512, so the carry is the quotient of the sum by 256, as the byte of the result is its rest. -/
theorem toNat_carryFlag (a b : Byte) : (carryFlag a b).toNat = (a.toNat + b.toNat) / 256 := by
  have ha := a.isLt
  have hb := b.isLt
  unfold carryFlag flagByte
  by_cases carries : a.toNat + b.toNat > 255
  · rw [decide_eq_true carries, if_pos rfl, BitVec.toNat_ofNat]
    omega
  · rw [decide_eq_false carries, if_neg Bool.false_ne_true, BitVec.toNat_ofNat]
    omega

/-- Settles O40: the result and the flag are read back from `setVFlag` register by register, and `toNat_carryFlag` gives VF. -/
theorem addSetsCarry : Obligations.AddSetsCarry := by
  refine ⟨decodeWord_ofNat_addVxVy, fun x y s => ⟨_, exec_addVxVy x y s, ?result, ?flag, ?others, rfl, rfl, fun _ => rfl⟩⟩
  case result =>
    intro notFlag
    rw [State.advance_getV, State.getV_setVFlag_result _ _ _ notFlag, BitVec.toNat_add]
  case flag => rw [State.advance_getV, State.getV_setVFlag_flag, toNat_carryFlag]
  case others =>
    intro k other notFlag
    rw [State.advance_getV, State.getV_setVFlag_other _ _ _ other notFlag]

/-- Settles O36: the answer is `setV` and `advance`, which write Vx and PC and nothing else. -/
theorem loadImmediate : Obligations.LoadImmediate := by
  refine ⟨decodeWord_ofNat_ldVxNn, fun x nn s => ⟨_, exec_ldVxNn x nn s, ?loaded, ?others, rfl, rfl, fun _ => rfl⟩⟩
  case loaded => rw [State.advance_getV, State.getV_setV_self]
  case others =>
    intro k other
    rw [State.advance_getV, State.getV_setV_ne _ _ other]

end Sys2Proof.Machine
end

section
/-! PROOFS. Clear screen (45_display.md R190): the word 0x00E0 and the blank display after it. -/

namespace Sys2Proof.Machine

/-- `encodeWord .cls` is the whole word 0x00E0 (R86), so the round trip decodes it. -/
theorem decodeWord_cls : decodeWord 0x00E0#16 = some .cls := Laws.RoundTrip.cls rfl

theorem exec_cls (s : State) : exec .cls s = .next (s.setFb Frame.blank).advance := rfl

/-- Settles O49: the answer is `setFb` of the blank frame and `advance`, which write FB and PC and nothing else. -/
theorem clearScreen : Obligations.ClearScreen := by
  refine ⟨decodeWord_cls, fun s => ⟨_, exec_cls s, ?cleared, rfl, rfl, fun _ => rfl⟩⟩
  case cleared =>
    intro x y
    rw [State.advance_fb, State.setFb_fb, Frame.get_blank]

end Sys2Proof.Machine
end

section
/-! PROOFS. The entry point (70_reset_and_hazards.md R231): a running step by the word at PC, and the first step after reset. -/

namespace Sys2Proof.Machine

/-! ### A running step by the word at PC (40_step_cycle.md R112, R113) -/

/-- The fetch reads the one word with that number, so the instruction it decodes to is the one fetched. -/
theorem State.fetchDecode_of_wordAt {s : State} {w : Word} {i : Instr} (inside : s.pc.toNat ≤ 0xFFE)
    (word : w.toNat = s.wordAt s.pc.toNat) (decodes : decodeWord w = some i) : s.fetchDecode = .ok i := by
  rcases s.fetchDecode_cases with ⟨above, -⟩ | ⟨-, w', word', fetched⟩
  · omega
  · obtain rfl : w' = w := BitVec.eq_of_toNat_eq (word'.trans word.symm)
    rcases fetched with ⟨j, decodes', fetches⟩ | ⟨invalid, -⟩
    · rw [fetches, Option.some.inj (decodes'.symm.trans decodes)]
    · rw [invalid] at decodes
      nomatch decodes

theorem step_of_fetchDecode_ok {s : State} {i : Instr} (running : s.exec = .running) (fetches : s.fetchDecode = .ok i) :
    step s = exec i s := by
  unfold step
  rw [running, fetches]

theorem step_of_wordAt {s : State} {a : Nat} {w : Word} {i : Instr} (running : s.exec = .running) (pc : s.pc.toNat = a)
    (inside : a ≤ 0xFFE) (word : w.toNat = s.wordAt a) (decodes : decodeWord w = some i) : step s = exec i s := by
  subst pc
  exact step_of_fetchDecode_ok running (State.fetchDecode_of_wordAt inside word decodes)

/-! ### The state after reset -/

@[simp] theorem State.resetWith_exec (cfg : Configuration) : (State.resetWith cfg).exec = .running := rfl

/-- PROG_BASE fits the 16-bit word of PC, so PC holds it unreduced. -/
@[simp] theorem State.toNat_resetWith_pc (cfg : Configuration) : (State.resetWith cfg).pc.toNat = 0x200 :=
  (by decide : (BitVec.ofNat 16 progBase).toNat = 0x200)

/-- Settles O1: replacing memory leaves PC and EXEC at their reset values, so the step is decided by the word at 0x200. -/
theorem entryPointAfterReset : Obligations.EntryPointAfterReset := by
  intro cfg
  have pc := State.toNat_resetWith_pc cfg
  have running := State.resetWith_exec cfg
  refine ⟨pc, running, fun m w i word decodes => ?firstStep⟩
  case firstStep => exact step_of_wordAt running pc (by decide) word decodes

end Sys2Proof.Machine
end

section
/-! PROOFS. What an instruction answers, said once: the error it raises, if it raises one (60_exceptions.md R212 to R214), or
the state it completes in. The whole-machine rules are read off these two functions and the inversion of a step. -/

namespace Sys2Proof.Machine

/-! ### The error an instruction raises, and the state it completes in -/

/-- The error `exec` raises, by the situations of 60_exceptions.md R212 to R214: six instructions can raise one. -/
def raised (i : Instr) (s : State) : Option Fault :=
  match i with
  | .ret => if s.stack = [] then some .stackUnderflow else none
  | .callNnn _ => if s.stack.length < 16 then none else some .stackOverflow
  | .drwVxVyN _ _ n =>
    if n = 0 ∨ s.i.toNat + n ≤ 0x1000 then none else some (.outOfBoundsMemoryAccess (max s.i.toNat 0x1000))
  | .ldBVx _ => if s.i.toNat ≤ 0xFFD then none else some (.outOfBoundsMemoryAccess (max s.i.toNat 0x1000))
  | .ldMemVx x => if s.i.toNat + x.val ≤ 0xFFF then none else some (.outOfBoundsMemoryAccess (max s.i.toNat 0x1000))
  | .ldVxMem x => if s.i.toNat + x.val ≤ 0xFFF then none else some (.outOfBoundsMemoryAccess (max s.i.toNat 0x1000))
  | _ => none

theorem ite_none_eq_none {c : Prop} [Decidable c] (e : Fault) : (if c then none else some e) = none ↔ c := by
  split <;> simp [*]

theorem raised_ret_eq_none (s : State) : raised .ret s = none ↔ s.stack ≠ [] := by
  rw [raised, ite_eq_right_iff]
  simp

theorem raised_callNnn_eq_none (nnn : BitVec 12) (s : State) : raised (.callNnn nnn) s = none ↔ s.stack.length < 16 :=
  ite_none_eq_none _

theorem raised_drwVxVyN_eq_none (x y : Reg) (n : Nat) (s : State) :
    raised (.drwVxVyN x y n) s = none ↔ n = 0 ∨ s.i.toNat + n ≤ 0x1000 :=
  ite_none_eq_none _

theorem raised_ldBVx_eq_none (x : Reg) (s : State) : raised (.ldBVx x) s = none ↔ s.i.toNat ≤ 0xFFD :=
  ite_none_eq_none _

theorem raised_ldMemVx_eq_none (x : Reg) (s : State) : raised (.ldMemVx x) s = none ↔ s.i.toNat + x.val ≤ 0xFFF :=
  ite_none_eq_none _

theorem raised_ldVxMem_eq_none (x : Reg) (s : State) : raised (.ldVxMem x) s = none ↔ s.i.toNat + x.val ≤ 0xFFF :=
  ite_none_eq_none _

/-- What DRW draws: the display after it, and whether a set pixel was hit. -/
def State.drawn (s : State) (x y : Reg) (n : Nat) : Frame × Bool :=
  drawRows s.cfg.drawEdge (s.spriteColumn x) (s.spriteRow y) (Memory.readList s.mem s.i.toNat n) (s.fb, false)

/-- The state an instruction completes in when it raises nothing. -/
def completed (i : Instr) (s : State) : State :=
  match i with
  | .cls => (s.setFb Frame.blank).advance
  | .ret => (s.setStack s.stack.tail).setPc (s.stack.headD 0#16)
  | .jpNnn nnn => s.setPc (addrOperand nnn)
  | .callNnn nnn => (s.setStack ((s.pc + 2#16) :: s.stack)).setPc (addrOperand nnn)
  | .seVxNn x nn => s.skipIf (decide (s.getV x = nn))
  | .sneVxNn x nn => s.skipIf (decide (s.getV x ≠ nn))
  | .seVxVy x y => s.skipIf (decide (s.getV x = s.getV y))
  | .ldVxNn x nn => (s.setV x nn).advance
  | .addVxNn x nn => (s.setV x (s.getV x + nn)).advance
  | .ldVxVy x y => (s.setV x (s.getV y)).advance
  | .orVxVy x y => (s.setVLogic x (s.getV x ||| s.getV y)).advance
  | .andVxVy x y => (s.setVLogic x (s.getV x &&& s.getV y)).advance
  | .xorVxVy x y => (s.setVLogic x (s.getV x ^^^ s.getV y)).advance
  | .addVxVy x y => (s.setVFlag x (s.getV x + s.getV y) (carryFlag (s.getV x) (s.getV y))).advance
  | .subVxVy x y => (s.setVFlag x (s.getV x - s.getV y) (noBorrowFlag (s.getV x) (s.getV y))).advance
  | .shrVxVy x y => (s.setVFlag x (s.shiftSource x y >>> 1) (shiftOutRight (s.shiftSource x y))).advance
  | .subnVxVy x y => (s.setVFlag x (s.getV y - s.getV x) (noBorrowFlag (s.getV y) (s.getV x))).advance
  | .shlVxVy x y => (s.setVFlag x (s.shiftSource x y <<< 1) (shiftOutLeft (s.shiftSource x y))).advance
  | .sneVxVy x y => s.skipIf (decide (s.getV x ≠ s.getV y))
  | .ldINnn nnn => (s.setI (addrOperand nnn)).advance
  | .jpV0Nnn nnn => s.setPc (addrOperand nnn + zext16 (s.jumpOffset nnn))
  | .rndVxNn x nn => (s.afterDraw.setV x (s.nextRandom &&& nn)).advance
  | .drwVxVyN x y n => ((s.setFb (s.drawn x y n).1).setFlag (flagByte (s.drawn x y n).2)).advance
  | .skpVx x => s.skipIf (s.keyDown (s.lowNibble x))
  | .sknpVx x => s.skipIf (!s.keyDown (s.lowNibble x))
  | .ldVxDt x => (s.setV x s.dt).advance
  | .ldVxK x => s.snapshotKeys.setExec (.waitingForKey x)
  | .ldDtVx x => (s.setDt (s.getV x)).advance
  | .ldStVx x => (s.setSt (s.getV x)).advance
  | .addIVx x => (s.setI (s.i + zext16 (s.getV x))).advance
  | .ldFVx x => (s.setI (glyphAddress (s.lowNibble x))).advance
  | .ldBVx x => (s.setMem (Memory.writeList s.mem s.i.toNat (bcdDigits (s.getV x)))).advance
  | .ldMemVx x => ((s.setMem (Memory.writeList s.mem s.i.toNat (s.getVRange x))).setI (s.indexAfterBlock x)).advance
  | .ldVxMem x =>
    ((s.setVRange (Memory.readList s.mem s.i.toNat (x.val + 1))).setI (s.indexAfterBlock x)).advance

/-- What `exec` answers, from the error and the completed state. -/
def answer (i : Instr) (s : State) : State :=
  match raised i s with
  | some e => s.raise e
  | none => completed i s

theorem answer_of_raises {i : Instr} {s : State} {e : Fault} (h : raised i s = some e) : answer i s = s.raise e := by
  rw [answer, h]

theorem answer_of_completes {i : Instr} {s : State} (h : raised i s = none) : answer i s = completed i s := by
  rw [answer, h]

theorem exec_answers_of_raises {i : Instr} {s : State} {e : Fault} (h : raised i s = some e)
    (traps : exec i s = .next (s.raise e)) : exec i s = .next (answer i s) := by
  rw [answer_of_raises h, traps]

theorem exec_answers_of_completes {i : Instr} {s : State} (h : raised i s = none)
    (runs : exec i s = .next (completed i s)) : exec i s = .next (answer i s) := by
  rw [answer_of_completes h, runs]

/-- `exec` is the two functions together: the six instructions that may raise by their case lemmas, the others by definition. -/
theorem exec_eq_answer (i : Instr) (s : State) : exec i s = .next (answer i s) := by
  cases i with
  | ret =>
    rcases execRet_cases s with ⟨a, rest, stack, runs⟩ | ⟨empty, traps⟩
    · have nonempty : ¬ s.stack = [] := stack ▸ List.cons_ne_nil a rest
      refine exec_answers_of_completes (if_neg nonempty) ?_
      rw [completed, stack]
      exact runs
    · exact exec_answers_of_raises (if_pos empty) traps
  | callNnn nnn =>
    rcases execCallNnn_cases nnn s with ⟨room, runs⟩ | ⟨full, traps⟩
    · exact exec_answers_of_completes (if_pos room) runs
    · exact exec_answers_of_raises (if_neg (Nat.not_lt.mpr full)) traps
  | drwVxVyN x y n =>
    rcases execDrwVxVyN_cases x y n s with ⟨inside, _, rfl, runs⟩ | ⟨⟨rows, beyond⟩, traps⟩
    · exact exec_answers_of_completes (if_pos inside) runs
    · have notInside : ¬ (n = 0 ∨ s.i.toNat + n ≤ 0x1000) := by omega
      exact exec_answers_of_raises (if_neg notInside) traps
  | ldBVx x =>
    rcases execLdBVx_cases x s with ⟨inside, runs⟩ | ⟨beyond, traps⟩
    · exact exec_answers_of_completes (if_pos inside) runs
    · exact exec_answers_of_raises (if_neg (Nat.not_le.mpr beyond)) traps
  | ldMemVx x =>
    rcases execLdMemVx_cases x s with ⟨inside, runs⟩ | ⟨beyond, traps⟩
    · exact exec_answers_of_completes (if_pos inside) runs
    · exact exec_answers_of_raises (if_neg (Nat.not_le.mpr beyond)) traps
  | ldVxMem x =>
    rcases execLdVxMem_cases x s with ⟨inside, runs⟩ | ⟨beyond, traps⟩
    · exact exec_answers_of_completes (if_pos inside) runs
    · exact exec_answers_of_raises (if_neg (Nat.not_le.mpr beyond)) traps
  | _ => rfl

theorem exec_of_completes {i : Instr} {s : State} (h : raised i s = none) : exec i s = .next (completed i s) := by
  rw [exec_eq_answer, answer_of_completes h]

theorem exec_of_raises {i : Instr} {s : State} {e : Fault} (h : raised i s = some e) : exec i s = .next (s.raise e) := by
  rw [exec_eq_answer, answer_of_raises h]

/-- Everything an instruction can do: trap entry, or completion. -/
theorem exec_next_cases {i : Instr} {s t : State} (h : exec i s = .next t) :
    (∃ e, raised i s = some e ∧ t = s.raise e) ∨ (raised i s = none ∧ t = completed i s) := by
  obtain rfl : answer i s = t := Host.Outcome.next.inj ((exec_eq_answer i s).symm.trans h)
  cases r : raised i s with
  | some e => exact .inl ⟨e, rfl, answer_of_raises r⟩
  | none => exact .inr ⟨rfl, answer_of_completes r⟩

/-- The errors of an instruction, each with its situation (60_exceptions.md R212 to R214). -/
theorem raised_cases {i : Instr} {s : State} {e : Fault} (h : raised i s = some e) :
    (e = .stackUnderflow ∧ s.stack = [] ∧ i = .ret) ∨ (e = .stackOverflow ∧ 16 ≤ s.stack.length ∧ ∃ nnn, i = .callNnn nnn) ∨
    e = .outOfBoundsMemoryAccess (max s.i.toNat 0x1000) := by
  cases i with
  | ret =>
    rw [raised] at h
    split at h
    · next empty => exact .inl ⟨(Option.some.inj h).symm, empty, rfl⟩
    · nomatch h
  | callNnn nnn =>
    rw [raised] at h
    split at h
    · nomatch h
    · next full => exact .inr (.inl ⟨(Option.some.inj h).symm, Nat.not_lt.mp full, nnn, rfl⟩)
  | drwVxVyN | ldBVx | ldMemVx | ldVxMem =>
    rw [raised] at h
    split at h
    · nomatch h
    · exact .inr (.inr (Option.some.inj h).symm)
  | _ => nomatch h

/-! ### The inversion of a step -/

/-- What a step answers next, by the executor's state (40_step_cycle.md R111 to R116). -/
theorem step_next_cases {s t : State} (h : step s = .next t) :
    (s.exec = .running ∧ ((∃ i, s.fetchDecode = .ok i ∧ exec i s = .next t) ∨
      (∃ e, s.fetchDecode = .error e ∧ t = s.raise e))) ∨
    (∃ x, s.exec = .waitingForKey x ∧ t = s.pollKey x) ∨ (∃ e, s.exec = .halted e ∧ t = s) := by
  rcases step_cases s with ⟨running, ⟨i, fetched, runs⟩ | ⟨e, fault, traps⟩⟩ | ⟨x, waits, polls⟩ | ⟨e, halted, stays⟩
  · exact .inl ⟨running, .inl ⟨i, fetched, runs.symm.trans h⟩⟩
  · exact .inl ⟨running, .inr ⟨e, fault, (Host.Outcome.next.inj (traps.symm.trans h)).symm⟩⟩
  · exact .inr (.inl ⟨x, waits, (Host.Outcome.next.inj (polls.symm.trans h)).symm⟩)
  · exact .inr (.inr ⟨e, halted, (Host.Outcome.next.inj (stays.symm.trans h)).symm⟩)

/-! ### The parts of the state that an instruction which completes leaves as they are (10_state.md) -/

@[simp] theorem completed_cfg (i : Instr) (s : State) : (completed i s).cfg = s.cfg := by
  cases i <;> simp [completed]

@[simp] theorem completed_key (i : Instr) (s : State) : (completed i s).key = s.key := by
  cases i <;> simp [completed]

/-- LD Vx, K is the one instruction that moves the executor out of Running without an error (R32). -/
theorem completed_exec {i : Instr} {s : State} (h : ∀ x, i ≠ .ldVxK x) : (completed i s).exec = s.exec := by
  cases i with
  | ldVxK x => exact absurd rfl (h x)
  | _ => simp [completed]

theorem completed_fb {i : Instr} {s : State} (hc : i ≠ .cls) (hd : ∀ x y n, i ≠ .drwVxVyN x y n) :
    (completed i s).fb = s.fb := by
  cases i with
  | cls => exact absurd rfl hc
  | drwVxVyN x y n => exact absurd rfl (hd x y n)
  | _ => simp [completed]

theorem completed_stack {i : Instr} {s : State} (hr : i ≠ .ret) (hc : ∀ nnn, i ≠ .callNnn nnn) :
    (completed i s).stack = s.stack := by
  cases i with
  | ret => exact absurd rfl hr
  | callNnn nnn => exact absurd rfl (hc nnn)
  | _ => simp [completed]

theorem completed_mem {i : Instr} {s : State} (hb : ∀ x, i ≠ .ldBVx x) (hm : ∀ x, i ≠ .ldMemVx x) :
    (completed i s).mem = s.mem := by
  cases i with
  | ldBVx x => exact absurd rfl (hb x)
  | ldMemVx x => exact absurd rfl (hm x)
  | _ => simp [completed]

theorem completed_dt {i : Instr} {s : State} (h : ∀ x, i ≠ .ldDtVx x) : (completed i s).dt = s.dt := by
  cases i with
  | ldDtVx x => exact absurd rfl (h x)
  | _ => simp [completed]

theorem completed_st {i : Instr} {s : State} (h : ∀ x, i ≠ .ldStVx x) : (completed i s).st = s.st := by
  cases i with
  | ldStVx x => exact absurd rfl (h x)
  | _ => simp [completed]

theorem completed_random {i : Instr} {s : State} (h : ∀ x nn, i ≠ .rndVxNn x nn) :
    (completed i s).randomIn = s.randomIn ∧ (completed i s).draws = s.draws := by
  cases i with
  | rndVxNn x nn => exact absurd rfl (h x nn)
  | _ => simp [completed]

end Sys2Proof.Machine
end

section
/-! PROOFS. The invariant (10_state.md R27, R38; 60_exceptions.md R211 to R214): it holds after reset, each part of it is kept by
each instruction, and so by every step and every schedule. -/

namespace Sys2Proof.Machine

/-! ### PC after an instruction that completes (R26) -/

/-- The last row of R26: PC + 2 after every ordinary instruction. -/
theorem completed_pc_of_ordinary {i : Instr} (h : i.ordinary = true) (s : State) : (completed i s).pc = s.pc + 2#16 := by
  cases i with
  | ret | jpNnn | callNnn | seVxNn | sneVxNn | seVxVy | sneVxVy | jpV0Nnn | skpVx | sknpVx | ldVxK => nomatch h
  | _ => simp [completed]

theorem toNat_addrOperand (nnn : BitVec 12) : (addrOperand nnn).toNat = nnn.toNat := by
  rw [addrOperand, BitVec.toNat_setWidth]
  exact Nat.mod_eq_of_lt (by omega)

theorem toNat_zext16 (b : Byte) : (zext16 b).toNat = b.toNat := by
  rw [zext16, BitVec.toNat_setWidth]
  exact Nat.mod_eq_of_lt (by omega)

/-- An address and a byte never pass 16 bits, so JP V0, NNN stores their sum unreduced. -/
theorem toNat_addrOperand_add_zext16 (nnn : BitVec 12) (b : Byte) :
    (addrOperand nnn + zext16 b).toNat = nnn.toNat + b.toNat := by
  rw [BitVec.toNat_add, toNat_addrOperand, toNat_zext16]
  omega

theorem State.skipIf_pc_le {s : State} (h : s.pc.toNat ≤ 0xFFE) (c : Bool) : (s.skipIf c).pc.toNat ≤ 0x1002 := by
  rw [State.skipIf_pc]
  split <;> rw [BitVec.toNat_add, BitVec.toNat_ofNat] <;> omega

/-- R38: from a PC that was fetched, the largest PC is that of JP V0 from 0xFFF with 0xFF in the register, 0x10FE. -/
theorem completed_pc_le {i : Instr} {s : State} (fetched : s.pc.toNat ≤ 0xFFE) (entries : ∀ a ∈ s.stack, a.toNat ≤ 0x1000)
    (completes : raised i s = none) : (completed i s).pc.toNat ≤ 0x10FE := by
  by_cases ordinary : i.ordinary = true
  · rw [completed_pc_of_ordinary ordinary, BitVec.toNat_add, BitVec.toNat_ofNat]
    omega
  · cases i with
    | ret =>
      cases stack : s.stack with
      | nil => exact absurd stack ((raised_ret_eq_none s).mp completes)
      | cons a rest =>
        have := entries a (stack ▸ List.mem_cons_self)
        rw [completed, State.setPc_pc, stack, List.headD_cons]
        omega
    | jpNnn nnn | callNnn nnn =>
      rw [completed, State.setPc_pc, toNat_addrOperand]
      omega
    | jpV0Nnn nnn =>
      rw [completed, State.setPc_pc, toNat_addrOperand_add_zext16]
      omega
    | seVxNn | sneVxNn | seVxVy | sneVxVy | skpVx | sknpVx =>
      rw [completed]
      exact (State.skipIf_pc_le fetched _).trans (by decide)
    | ldVxK x => exact fetched.trans (by decide)
    | _ => exact absurd rfl ordinary

/-! ### The stack after an instruction that completes (R27) -/

/-- The depth and the size of the entries, the two parts of the invariant that speak of the stack. -/
def StackFits (l : List Word) : Prop := l.length ≤ 16 ∧ ∀ a ∈ l, a.toNat ≤ 0x1000

/-- CALL pushes PC + 2 of a fetched instruction onto a stack with room; RET drops an entry. -/
theorem completed_stackFits {i : Instr} {s : State} (fetched : s.pc.toNat ≤ 0xFFE) (fits : StackFits s.stack)
    (completes : raised i s = none) : StackFits (completed i s).stack := by
  cases i with
  | ret =>
    obtain ⟨depth, entries⟩ := fits
    refine ⟨?_, fun a ha => entries a (List.mem_of_mem_tail ha)⟩
    have : s.stack.tail.length ≤ 16 := by rw [List.length_tail]; omega
    exact this
  | callNnn nnn =>
    obtain ⟨-, entries⟩ := fits
    have room := (raised_callNnn_eq_none nnn s).mp completes
    have pushed : (s.pc + 2#16).toNat ≤ 0x1000 := by
      rw [BitVec.toNat_add, BitVec.toNat_ofNat]
      omega
    refine ⟨Nat.succ_le_of_lt room, fun a ha => ?_⟩
    rcases List.mem_cons.mp ha with rfl | older
    · exact pushed
    · exact entries a older
  | _ => refine (congrArg StackFits (completed_stack ?_ ?_)).mpr fits <;> nofun

/-! ### Memory after an instruction that completes (log 30) -/

/-- The two stores write inside the address space, so they keep the canonical form. -/
theorem completed_wf {i : Instr} {s : State} (wf : Memory.wf s.mem = true) (completes : raised i s = none) :
    Memory.wf (completed i s).mem = true := by
  cases i with
  | ldBVx x =>
    have inside := (raised_ldBVx_eq_none x s).mp completes
    exact Memory.wf_writeList wf (by simp only [bcdDigits, List.length_cons, List.length_nil, memSize]; omega)
  | ldMemVx x =>
    have inside := (raised_ldMemVx_eq_none x s).mp completes
    exact Memory.wf_writeList wf (by rw [State.getVRange_length, memSize]; omega)
  | _ => refine (congrArg (Memory.wf · = true) (completed_mem ?_ ?_)).mpr wf <;> nofun

/-! ### The executor's state (R25, R32) -/

theorem State.execFits_of_running {s : State} (h : s.exec = .running) : s.execFits = true := by
  rw [State.execFits, h]

/-- An instruction that completes leaves the executor running, or waiting on the instruction that was fetched. -/
theorem completed_execFits {i : Instr} {s : State} (running : s.exec = .running) (fetched : s.pc.toNat ≤ 0xFFE) :
    (completed i s).execFits = true := by
  cases i with
  | ldVxK x => exact decide_eq_true fetched
  | _ => exact State.execFits_of_running ((completed_exec (by nofun)).trans running)

/-- An error an instruction raises fits the state it is raised in. -/
theorem raise_execFits_of_raised {i : Instr} {s : State} {e : Fault} (depth : s.stack.length ≤ 16)
    (raises : raised i s = some e) : (s.raise e).execFits = true := by
  rcases raised_cases raises with ⟨rfl, empty, -⟩ | ⟨rfl, full, -⟩ | rfl
  · exact decide_eq_true (by rw [State.raise_stack, empty, List.length_nil])
  · exact decide_eq_true (Nat.le_antisymm depth full)
  · have bounds : 0xFFE < max s.i.toNat 0x1000 ∧ max s.i.toNat 0x1000 ≤ 0xFFFF := by omega
    simp only [State.execFits, State.raise_exec, Bool.and_eq_true, decide_eq_true_eq]
    exact bounds

/-- So does the error of a fetch or of the decoder (R211, R214). -/
theorem raise_execFits_of_fetchDecode {s : State} {e : Fault} (pc : s.pc.toNat ≤ 0x10FE) (fault : s.fetchDecode = .error e) :
    (s.raise e).execFits = true := by
  rcases s.fetchDecode_cases with ⟨above, raises⟩ | ⟨inside, w, -, ⟨i, -, fetched⟩ | ⟨invalid, raises⟩⟩
  · obtain rfl : _ = e := Except.error.inj (raises.symm.trans fault)
    have bounds : 0xFFE < s.pc.toNat ∧ s.pc.toNat ≤ 0xFFFF := by omega
    simp only [State.execFits, State.raise_exec, Bool.and_eq_true, decide_eq_true_eq]
    exact bounds
  · nomatch fetched.symm.trans fault
  · obtain rfl : _ = e := Except.error.inj (raises.symm.trans fault)
    simp [State.execFits, inside, invalid]

theorem State.fetched_of_fetchDecode_ok {s : State} {i : Instr} (h : s.fetchDecode = .ok i) : s.pc.toNat ≤ 0xFFE := by
  rcases s.fetchDecode_cases with ⟨-, raises⟩ | ⟨inside, -⟩
  · nomatch raises.symm.trans h
  · exact inside

/-! ### The invariant -/

/-- Trap entry changes EXEC alone, so it keeps the invariant when the error fits. -/
theorem State.inv_raise {s : State} {e : Fault} (inv : s.Inv) (fits : (s.raise e).execFits = true) : (s.raise e).Inv := by
  obtain ⟨wf, depth, entries, pc, -⟩ := inv
  exact ⟨wf, depth, entries, pc, fits⟩

theorem exec_keeps_inv {i : Instr} {s t : State} (inv : s.Inv) (running : s.exec = .running) (fetched : s.pc.toNat ≤ 0xFFE)
    (runs : exec i s = .next t) : t.Inv := by
  obtain ⟨wf, depth, entries, pc, -⟩ := id inv
  rcases exec_next_cases runs with ⟨e, raises, rfl⟩ | ⟨completes, rfl⟩
  · exact State.inv_raise inv (raise_execFits_of_raised depth raises)
  · obtain ⟨depth', entries'⟩ := completed_stackFits fetched ⟨depth, entries⟩ completes
    exact ⟨completed_wf wf completes, depth', entries', completed_pc_le fetched entries completes,
      completed_execFits running fetched⟩

/-- A poll that ends the wait runs on behind the fetched LD Vx, K. -/
theorem State.pollKey_keeps_inv {s : State} {x : Reg} (inv : s.Inv) (waits : s.exec = .waitingForKey x) :
    (s.pollKey x).Inv := by
  obtain ⟨wf, depth, entries, pc, fits⟩ := inv
  rcases s.pollKey_cases x with ⟨-, polled⟩ | ⟨k, -, -, polled⟩ <;> rw [polled]
  · exact ⟨wf, depth, entries, pc, fits⟩
  · have fetched : s.pc.toNat ≤ 0xFFE := by
      rw [State.execFits, waits] at fits
      exact of_decide_eq_true fits
    refine ⟨wf, depth, entries, ?_, rfl⟩
    have advanced : (s.pc + 2#16).toNat ≤ 0x10FE := by
      rw [BitVec.toNat_add, BitVec.toNat_ofNat]
      omega
    exact advanced

/-- Settles O4, by the executor's state: a running step is `exec` on a fetched PC or the trap of the fetch, a waiting one is a
poll, a halted one changes nothing. -/
theorem stepKeepsInvariant : Obligations.StepKeepsInvariant := by
  intro s t inv answers
  rcases step_next_cases answers with ⟨running, ⟨i, fetches, runs⟩ | ⟨e, fault, rfl⟩⟩ | ⟨x, waits, rfl⟩ | ⟨e, -, rfl⟩
  · exact exec_keeps_inv inv running (State.fetched_of_fetchDecode_ok fetches) runs
  · obtain ⟨-, -, -, pc, -⟩ := id inv
    exact State.inv_raise inv (raise_execFits_of_fetchDecode pc fault)
  · exact State.pollKey_keeps_inv inv waits
  · exact inv

/-! ### Reset and the other operations -/

theorem State.resetWith_inv (cfg : Configuration) : (State.resetWith cfg).Inv :=
  ⟨Memory.wf_reset cfg, Nat.zero_le 16, nofun, (State.toNat_resetWith_pc cfg).trans_le (by decide), rfl⟩

/-- Settles O3: `State.reset` is the reset with the default configuration. -/
theorem resetMeetsInvariant : Obligations.ResetMeetsInvariant := ⟨State.resetWith_inv defaultConfig, State.resetWith_inv⟩

/-- An operation that reports an error leaves the state as it is (R215). -/
theorem afterOp_of_fault {s : State} {op : Op} {e : Fault} (h : perform op s = .fault e) : afterOp s op = s := by
  unfold afterOp
  rw [h]

/-- A load either writes its bytes at 0x200 or is refused and leaves the state (R121). -/
theorem afterOp_load_cases (s : State) (bytes : List Byte) :
    afterOp s (.load bytes) = s ∨
      (bytes.length ≤ maxRom ∧ afterOp s (.load bytes) = s.setMem (Memory.writeList s.mem progBase bytes)) := by
  rcases Nat.lt_or_ge maxRom bytes.length with tooLarge | fits
  · exact .inl (afterOp_of_fault (perform_load_of_gt s tooLarge))
  · exact .inr ⟨fits, afterOp_of_next (perform_load_of_le s fits)⟩

/-- `KEY[k]` made `pressed`, the other keys as they are. -/
def State.setKeyFlag (s : State) (k : Key) (pressed : Bool) : State :=
  { s with key := s.key.set k.val pressed k.isLt }

/-- set_key either writes the flag of a key or is refused and leaves the state (R120). -/
theorem afterOp_setKey_cases (s : State) (index : Nat) (pressed : Bool) :
    afterOp s (.setKey index pressed) = s ∨ ∃ k, afterOp s (.setKey index pressed) = s.setKeyFlag k pressed := by
  rcases Nat.lt_or_ge index 16 with isKey | noKey
  · exact .inr ⟨⟨index, isKey⟩, afterOp_of_next (perform_setKey_of_lt s pressed isKey)⟩
  · exact .inl (afterOp_of_fault (perform_setKey_of_ge s pressed noKey))

/-- Loading writes at most 3584 bytes from 0x200, inside the address space; of the invariant it touches memory alone. -/
theorem State.load_keeps_inv {s : State} {bytes : List Byte} (inv : s.Inv) (fits : bytes.length ≤ maxRom) :
    (s.setMem (Memory.writeList s.mem progBase bytes)).Inv := by
  obtain ⟨wf, rest⟩ := inv
  refine ⟨Memory.wf_writeList wf ?_, rest⟩
  unfold maxRom at fits
  unfold progBase memSize
  omega

theorem afterOp_keeps_inv {s : State} (inv : s.Inv) (op : Op) : (afterOp s op).Inv := by
  cases op with
  | reset cfg => exact State.resetWith_inv cfg
  | load bytes =>
    rcases afterOp_load_cases s bytes with refused | ⟨fits, loaded⟩
    · rwa [refused]
    · rw [loaded]
      exact State.load_keeps_inv inv fits
  | step =>
    obtain ⟨t, answers⟩ := step_answers_next s
    rw [afterOp_of_next (op := .step) answers]
    exact stepKeepsInvariant s t inv answers
  | setKey index pressed =>
    rcases afterOp_setKey_cases s index pressed with refused | ⟨k, written⟩
    · rwa [refused]
    · rw [written]
      exact inv
  | tickTimers | supplyRandom b => exact inv

/-- Settles O5, by induction on the schedule. -/
theorem everyScheduleKeepsInvariant : Obligations.EveryScheduleKeepsInvariant := by
  intro ops
  induction ops with
  | nil => exact fun s inv => inv
  | cons op ops ih => exact fun s inv => ih (afterOp s op) (afterOp_keeps_inv inv op)

end Sys2Proof.Machine
end

section
/-! PROOFS. Decode and encode (30_encoding.md R80 to R93): the round trips, the invalid words, and the word of each format as
the sum of its digits. -/

namespace Sys2Proof

/-! ### From instruction to word and back -/

/-- The round trips of the instructions, one each, gathered. -/
theorem decodeWord_encodeWord : ∀ i : Instr, Laws.RoundTrip.Statement i
  | .cls => Laws.RoundTrip.cls
  | .ret => Laws.RoundTrip.ret
  | .jpNnn nnn => Laws.RoundTrip.jpNnn nnn
  | .callNnn nnn => Laws.RoundTrip.callNnn nnn
  | .seVxNn x nn => Laws.RoundTrip.seVxNn x nn
  | .sneVxNn x nn => Laws.RoundTrip.sneVxNn x nn
  | .seVxVy x y => Laws.RoundTrip.seVxVy x y
  | .ldVxNn x nn => Laws.RoundTrip.ldVxNn x nn
  | .addVxNn x nn => Laws.RoundTrip.addVxNn x nn
  | .ldVxVy x y => Laws.RoundTrip.ldVxVy x y
  | .orVxVy x y => Laws.RoundTrip.orVxVy x y
  | .andVxVy x y => Laws.RoundTrip.andVxVy x y
  | .xorVxVy x y => Laws.RoundTrip.xorVxVy x y
  | .addVxVy x y => Laws.RoundTrip.addVxVy x y
  | .subVxVy x y => Laws.RoundTrip.subVxVy x y
  | .shrVxVy x y => Laws.RoundTrip.shrVxVy x y
  | .subnVxVy x y => Laws.RoundTrip.subnVxVy x y
  | .shlVxVy x y => Laws.RoundTrip.shlVxVy x y
  | .sneVxVy x y => Laws.RoundTrip.sneVxVy x y
  | .ldINnn nnn => Laws.RoundTrip.ldINnn nnn
  | .jpV0Nnn nnn => Laws.RoundTrip.jpV0Nnn nnn
  | .rndVxNn x nn => Laws.RoundTrip.rndVxNn x nn
  | .drwVxVyN x y n => Laws.RoundTrip.drwVxVyN x y n
  | .skpVx x => Laws.RoundTrip.skpVx x
  | .sknpVx x => Laws.RoundTrip.sknpVx x
  | .ldVxDt x => Laws.RoundTrip.ldVxDt x
  | .ldVxK x => Laws.RoundTrip.ldVxK x
  | .ldDtVx x => Laws.RoundTrip.ldDtVx x
  | .ldStVx x => Laws.RoundTrip.ldStVx x
  | .addIVx x => Laws.RoundTrip.addIVx x
  | .ldFVx x => Laws.RoundTrip.ldFVx x
  | .ldBVx x => Laws.RoundTrip.ldBVx x
  | .ldMemVx x => Laws.RoundTrip.ldMemVx x
  | .ldVxMem x => Laws.RoundTrip.ldVxMem x

/-- An instruction is one word, so its bytes are the two of that word. -/
theorem encodeBytes_append (i : Instr) (rest : List Byte) :
    encodeBytes i ++ rest = (bytesOfWord (encodeWord i)).1 :: (bytesOfWord (encodeWord i)).2 :: rest := rfl

/-- Settles O21: the decoder reads the two bytes back as the word, and the word decodes by the round trip. -/
theorem decodeOfEncode : Obligations.DecodeOfEncode := by
  intro i rest wf
  rw [encodeBytes_append, decode_bytesOfWord, decodeWord_encodeWord i wf]

/-! ### From word to instruction and back -/

/-- An instruction is a faithful reading of a word when it is well-formed and encodes to that word. -/
def ReadsAs (w : Word) (i : Instr) : Prop := i.wellFormed = true ∧ encodeWord i = w

theorem decodeGroup0_readsAs {w : Word} {i : Instr} (h : decodeGroup0 w = some i) : ReadsAs w i := by
  unfold decodeGroup0 at h
  split at h
  · next word => cases h; exact ⟨rfl, word.symm⟩
  · split at h
    · next word => cases h; exact ⟨rfl, word.symm⟩
    · nomatch h

theorem decodeGroup8_readsAs {w : Word} {i : Instr} (op : opField w = 0x8#4) (h : decodeGroup8 w = some i) :
    ReadsAs w i := by
  unfold decodeGroup8 at h
  split at h <;> cases h <;> exact ⟨rfl, formatXYN_fields op ‹_›⟩

theorem decodeGroupE_readsAs {w : Word} {i : Instr} (op : opField w = 0xE#4) (h : decodeGroupE w = some i) :
    ReadsAs w i := by
  unfold decodeGroupE at h
  split at h <;> cases h <;> exact ⟨rfl, formatXNN_fields op ‹_›⟩

theorem decodeGroupF_readsAs {w : Word} {i : Instr} (op : opField w = 0xF#4) (h : decodeGroupF w = some i) :
    ReadsAs w i := by
  unfold decodeGroupF at h
  split at h <;> cases h <;> exact ⟨rfl, formatXNN_fields op ‹_›⟩

/-- Settles O22, group by group: the fields of the word and the fixed digits of its format spell the word. All 16 groups are
populated (R84), so the arm behind the fifteen others is group F. -/
theorem encodeOfDecode : Obligations.EncodeOfDecode := by
  intro w i h
  show ReadsAs w i
  unfold decodeWord at h
  split at h
  case h_1 => exact decodeGroup0_readsAs h
  case h_2 op | h_3 op | h_11 op | h_12 op => cases h; exact ⟨rfl, formatNNN_fields op⟩
  case h_4 op | h_5 op | h_7 op | h_8 op | h_13 op => cases h; exact ⟨rfl, formatXNN_fields op rfl⟩
  case h_6 op | h_10 op =>
    split at h
    · next n => cases h; exact ⟨rfl, formatXYN_fields op n⟩
    · nomatch h
  case h_9 op => exact decodeGroup8_readsAs op h
  case h_14 op =>
    cases h
    have height : (nField w).toNat ≤ 15 := Nat.le_of_lt_succ (nField w).isLt
    refine ⟨decide_eq_true height, ?_⟩
    rw [encodeWord, BitVec.ofNat_toNat, BitVec.setWidth_eq]
    exact formatXYN_fields op rfl
  case h_15 op => exact decodeGroupE_readsAs op h
  case h_16 =>
    have op : opField w = 0xF#4 := by
      simp only [imp_false] at *
      bv_omega
    exact decodeGroupF_readsAs op h

/-! ### The invalid words (R91) -/

theorem decodeGroup0_eq_none_iff (w : Word) : decodeGroup0 w = none ↔ w.toNat ≠ 0x00E0 ∧ w.toNat ≠ 0x00EE := by
  unfold decodeGroup0
  split
  · next cls => simp [cls]
  · next notCls =>
    split
    · next ret => simp [ret]
    · next notRet => exact iff_of_true rfl (by bv_omega)

theorem decodeGroup8_eq_none_iff (w : Word) :
    decodeGroup8 w = none ↔ (nField w).toNat ∈ [8, 9, 0xA, 0xB, 0xC, 0xD, 0xF] := by
  unfold decodeGroup8
  split
  case h_10 =>
    refine iff_of_true rfl ?_
    simp only [imp_false, List.mem_cons, List.not_mem_nil, or_false] at *
    bv_omega
  all_goals next n => simp [n]

theorem decodeGroupE_eq_none_iff (w : Word) : decodeGroupE w = none ↔ (nnField w).toNat ∉ [0x9E, 0xA1] := by
  unfold decodeGroupE
  split
  case h_3 =>
    refine iff_of_true rfl ?_
    simp only [imp_false, List.mem_cons, List.not_mem_nil, or_false] at *
    bv_omega
  all_goals next nn => simp [nn]

theorem decodeGroupF_eq_none_iff (w : Word) :
    decodeGroupF w = none ↔ (nnField w).toNat ∉ [0x07, 0x0A, 0x15, 0x18, 0x1E, 0x29, 0x33, 0x55, 0x65] := by
  unfold decodeGroupF
  split
  case h_10 =>
    refine iff_of_true rfl ?_
    simp only [imp_false, List.mem_cons, List.not_mem_nil, or_false] at *
    bv_omega
  all_goals next nn => simp [nn]

/-- Only the groups 0, 5, 8, 9, E and F have invalid words. -/
theorem decodeWord_eq_none_iff (w : Word) : decodeWord w = none ↔
    (opField w = 0x0#4 ∧ decodeGroup0 w = none) ∨ ((opField w = 0x5#4 ∨ opField w = 0x9#4) ∧ nField w ≠ 0x0#4) ∨
    (opField w = 0x8#4 ∧ decodeGroup8 w = none) ∨ (opField w = 0xE#4 ∧ decodeGroupE w = none) ∨
    (opField w = 0xF#4 ∧ decodeGroupF w = none) := by
  unfold decodeWord
  split
  case h_16 =>
    have op : opField w = 0xF#4 := by
      simp only [imp_false] at *
      bv_omega
    simp [op]
  all_goals next op => simp [op]

theorem opField_eq_iff (w : Word) (op : BitVec 4) : opField w = op ↔ w.toNat / 0x1000 = op.toNat := by
  rw [← toNat_opField, BitVec.toNat_inj]

theorem nField_eq_iff (w : Word) (n : BitVec 4) : nField w = n ↔ w.toNat % 16 = n.toNat := by
  rw [← toNat_nField, BitVec.toNat_inj]

/-- Settles O23: the groups with invalid words one by one, their fields read as numbers. -/
theorem invalidWordsListed : Obligations.InvalidWordsListed := by
  intro w
  rw [decodeWord_eq_none_iff, decodeGroup0_eq_none_iff, decodeGroup8_eq_none_iff, decodeGroupE_eq_none_iff,
    decodeGroupF_eq_none_iff, ne_eq (nField w), nField_eq_iff, toNat_nField, toNat_nnField]
  simp only [opField_eq_iff]
  rfl

/-- Settles O24: each word is read by the decoder, which computes. -/
theorem writtenOutWordsDecode : Obligations.WrittenOutWordsDecode := by
  unfold Obligations.WrittenOutWordsDecode
  decide

/-! ### The words as the sums that R90's patterns write -/

/-- A number that is the word of a well-formed instruction decodes to it. -/
theorem decodeWord_ofNat {i : Instr} {n : Nat} (wf : i.wellFormed = true) (word : encodeWord i = BitVec.ofNat 16 n) :
    decodeWord (BitVec.ofNat 16 n) = some i := by
  rw [← word]
  exact decodeWord_encodeWord i wf

/-- A pattern of R90 that fixes the last digit n holds it in its first summand. -/
theorem formatXYN_eq_pattern (op : BitVec 4) (x y : Reg) (n : BitVec 4) :
    formatXYN op x y n = BitVec.ofNat 16 (op.toNat * 0x1000 + n.toNat + x.val * 0x100 + y.val * 0x10) := by
  rw [formatXYN_eq]
  congr 1
  omega

/-- So does one that fixes the last byte nn. -/
theorem formatXNN_eq_pattern (op : BitVec 4) (x : Reg) (nn : Byte) :
    formatXNN op x nn = BitVec.ofNat 16 (op.toNat * 0x1000 + nn.toNat + x.val * 0x100) := by
  rw [formatXNN_eq]
  congr 1
  omega

end Sys2Proof
end

section
/-! PROOFS. The step cycle (40_step_cycle.md R111 to R116; 60_exceptions.md R211 to R218): fetch and decode, the transitions of
the executor, and the halted core. -/

namespace Sys2Proof.Machine

/-! ### Fetch and decode (R112, R113) -/

theorem decodeWord_of_decode_pair {hi lo : Byte} {i : Instr} (h : decode [hi, lo] = .ok (i, [])) :
    decodeWord (wordOfBytes hi lo) = some i := by
  rw [decode] at h
  cases word : decodeWord (wordOfBytes hi lo) with
  | none => simp [word] at h
  | some j => simpa [word] using h

/-- Settles O6: the two bytes are the word at PC, so the step is that of the word's instruction. -/
theorem stepRunsDecodedInstruction : Obligations.StepRunsDecodedInstruction := by
  intro s i running inside _ decodes
  exact step_of_wordAt running rfl inside (toNat_wordOfBytes _ _) (decodeWord_of_decode_pair decodes)

theorem step_of_fetchDecode_error {s : State} {e : Fault} (running : s.exec = .running) (fault : s.fetchDecode = .error e) :
    step s = .next (s.raise e) := by
  unfold step
  rw [running, fault]

theorem State.fetchDecode_of_gt {s : State} (above : s.pc.toNat > 0xFFE) :
    s.fetchDecode = .error (.outOfBoundsMemoryAccess s.pc.toNat) := by
  rcases s.fetchDecode_cases with ⟨-, raises⟩ | ⟨inside, -⟩
  · exact raises
  · omega

/-- A word that matches no row of the opcode map is the invalid opcode of that PC. -/
theorem State.fetchDecode_of_invalid {s : State} {w : Word} (inside : s.pc.toNat ≤ 0xFFE)
    (word : w.toNat = s.wordAt s.pc.toNat) (invalid : decodeWord w = none) :
    s.fetchDecode = .error (.invalidOpcode s.pc w) := by
  rcases s.fetchDecode_cases with ⟨above, -⟩ | ⟨-, w', word', decoded⟩
  · omega
  · obtain rfl : w' = w := BitVec.eq_of_toNat_eq (word'.trans word.symm)
    rcases decoded with ⟨i, decodes, -⟩ | ⟨-, raises⟩
    · nomatch invalid.symm.trans decodes
    · exact raises

/-- Settles O7: the fetch and the decoder each trap, or the instruction runs. -/
theorem fetchThenDecode : Obligations.FetchThenDecode := by
  intro s running
  refine ⟨fun above => ?fetchFault, fun inside w word => ⟨fun invalid => ?invalidWord, fun i decodes => ?runs⟩⟩
  case fetchFault => exact step_of_fetchDecode_error running (State.fetchDecode_of_gt above)
  case invalidWord => exact step_of_fetchDecode_error running (State.fetchDecode_of_invalid inside word invalid)
  case runs => exact step_of_wordAt running rfl inside word decodes

/-! ### The executor after a step (10_state.md R32) -/

/-- The errors of a step, the four of R210 that a step raises. -/
def StepError (e : Fault) : Prop :=
  (∃ a w, e = .invalidOpcode a w) ∨ e = .stackOverflow ∨ e = .stackUnderflow ∨ ∃ a, e = .outOfBoundsMemoryAccess a

theorem stepError_of_fetchDecode {s : State} {e : Fault} (h : s.fetchDecode = .error e) : StepError e := by
  rcases s.fetchDecode_cases with ⟨-, raises⟩ | ⟨-, w, -, ⟨i, -, fetched⟩ | ⟨-, raises⟩⟩
  · exact .inr (.inr (.inr ⟨_, (Except.error.inj (raises.symm.trans h)).symm⟩))
  · nomatch fetched.symm.trans h
  · exact .inl ⟨_, _, (Except.error.inj (raises.symm.trans h)).symm⟩

theorem stepError_of_raised {i : Instr} {s : State} {e : Fault} (h : raised i s = some e) : StepError e := by
  rcases raised_cases h with ⟨rfl, -, -⟩ | ⟨rfl, -, -⟩ | rfl
  · exact .inr (.inr (.inl rfl))
  · exact .inr (.inl rfl)
  · exact .inr (.inr (.inr ⟨_, rfl⟩))

/-- LD Vx, K waits; every other instruction that completes keeps EXEC. -/
theorem completed_exec_cases (i : Instr) (s : State) :
    (∃ x, i = .ldVxK x ∧ (completed i s).exec = .waitingForKey x) ∨ (completed i s).exec = s.exec := by
  by_cases waits : ∃ x, i = .ldVxK x
  · obtain ⟨x, rfl⟩ := waits
    exact .inl ⟨x, rfl, rfl⟩
  · exact .inr (completed_exec fun x hx => waits ⟨x, hx⟩)

/-- A running step raises an error, and then changes EXEC alone, or waits on the LD Vx, K it fetched, or runs on. -/
theorem running_step_cases {s t : State} (running : s.exec = .running) (answers : step s = .next t) :
    (∃ e, StepError e ∧ t = s.raise e) ∨ (∃ x, s.fetchDecode = .ok (.ldVxK x) ∧ t.exec = .waitingForKey x) ∨
      t.exec = .running := by
  rcases step_next_cases answers with ⟨-, ⟨i, fetches, runs⟩ | ⟨e, fault, rfl⟩⟩ | ⟨x, waits, -⟩ | ⟨e, halted, -⟩
  · rcases exec_next_cases runs with ⟨e, raises, rfl⟩ | ⟨-, rfl⟩
    · exact .inl ⟨e, stepError_of_raised raises, rfl⟩
    · rcases completed_exec_cases i s with ⟨x, rfl, waiting⟩ | same
      · exact .inr (.inl ⟨x, fetches, waiting⟩)
      · exact .inr (.inr (same.trans running))
  · exact .inl ⟨e, stepError_of_fetchDecode fault, rfl⟩
  · nomatch running.symm.trans waits
  · nomatch running.symm.trans halted

theorem step_of_waiting {s : State} {x : Reg} (h : s.exec = .waitingForKey x) : step s = .next (s.pollKey x) := by
  unfold step
  rw [h]

theorem State.pollKey_exec_cases {s : State} {x : Reg} (waits : s.exec = .waitingForKey x) :
    (s.pollKey x).exec = .waitingForKey x ∨ ((s.pollKey x).exec = .running ∧ ∃ k, s.NewlyPressed k) := by
  rcases s.pollKey_cases x with ⟨-, polled⟩ | ⟨k, pressed, -, polled⟩ <;> rw [polled]
  · exact .inl waits
  · exact .inr ⟨rfl, k, pressed⟩

/-- Settles O11, by the executor's state. -/
theorem executorTransitions : Obligations.ExecutorTransitions := by
  intro s t answers
  refine ⟨fun running => ?running, fun x waits => ?waiting, fun e halted => ?halted⟩
  case running =>
    rcases running_step_cases running answers with ⟨e, error, rfl⟩ | waiting | goesOn
    · rcases error with ⟨a, w, rfl⟩ | rfl | rfl | ⟨a, rfl⟩
      · exact .inr (.inr (.inl ⟨a, w, rfl⟩))
      · exact .inr (.inr (.inr (.inl rfl)))
      · exact .inr (.inr (.inr (.inr (.inl rfl))))
      · exact .inr (.inr (.inr (.inr (.inr ⟨a, rfl⟩))))
    · exact .inr (.inl waiting)
    · exact .inl goesOn
  case waiting =>
    obtain rfl : s.pollKey x = t := Host.Outcome.next.inj ((step_of_waiting waits).symm.trans answers)
    exact State.pollKey_exec_cases waits
  case halted =>
    obtain rfl : s = t := Host.Outcome.next.inj ((step_of_halted halted).symm.trans answers)
    exact halted

/-- Settles O10: a step that ends in Halted was a trap entry, or began in Halted and changed nothing. -/
theorem raisingStepChangesOnlyExec : Obligations.RaisingStepChangesOnlyExec := by
  intro s t e answers halted
  cases state : s.exec with
  | running =>
    rcases running_step_cases state answers with ⟨e', -, rfl⟩ | ⟨x, -, waiting⟩ | running
    · obtain rfl : e' = e := Exec.halted.inj halted
      rfl
    · nomatch waiting.symm.trans halted
    · nomatch running.symm.trans halted
  | waitingForKey x =>
    obtain rfl : s.pollKey x = t := Host.Outcome.next.inj ((step_of_waiting state).symm.trans answers)
    rcases State.pollKey_exec_cases state with waiting | ⟨running, -⟩
    · nomatch waiting.symm.trans halted
    · nomatch running.symm.trans halted
  | halted e' =>
    obtain rfl : s = t := Host.Outcome.next.inj ((step_of_halted state).symm.trans answers)
    rw [← halted]

/-! ### The halted core (60_exceptions.md R218) -/

/-- The parts of the state that a halted core keeps until a reset. -/
def State.SameCore (s t : State) : Prop :=
  t.exec = s.exec ∧ t.pc = s.pc ∧ (∀ k, t.getV k = s.getV k) ∧ t.i = s.i ∧ t.stack = s.stack ∧ t.fb = s.fb

theorem State.SameCore.refl (s : State) : s.SameCore s := ⟨rfl, rfl, fun _ => rfl, rfl, rfl, rfl⟩

/-- Beside reset and the step, an operation writes memory, the keys, the timers or the random input. -/
theorem afterOp_sameCore {s : State} {op : Op} (notReset : ∀ cfg, op ≠ .reset cfg) (notStep : op ≠ .step) :
    s.SameCore (afterOp s op) := by
  cases op with
  | reset cfg => exact absurd rfl (notReset cfg)
  | step => exact absurd rfl notStep
  | load bytes =>
    rcases afterOp_load_cases s bytes with same | ⟨-, same⟩ <;> rw [same] <;> exact State.SameCore.refl s
  | setKey index pressed =>
    rcases afterOp_setKey_cases s index pressed with same | ⟨k, same⟩ <;> rw [same] <;> exact State.SameCore.refl s
  | tickTimers | supplyRandom b => exact State.SameCore.refl s

/-- Settles O12: a step of a halted core is a no-op, and the other operations do not touch these parts in any state. -/
theorem onlyResetLeavesHalted : Obligations.OnlyResetLeavesHalted := by
  intro s e op halted notReset
  have same : s.SameCore (afterOp s op) := by
    by_cases isStep : op = .step
    · rw [isStep, afterOp_of_next (op := .step) (step_of_halted halted)]
      exact State.SameCore.refl s
    · exact afterOp_sameCore notReset isStep
  obtain ⟨exec, rest⟩ := same
  exact ⟨exec.trans halted, rest⟩

end Sys2Proof.Machine
end

section
/-! PROOFS. The whole-machine rules: what the instructions change and leave (10_state.md R23 to R32, 20_memory.md R58), and what
they do not depend on (30_encoding.md R93, 40_step_cycle.md R126, 10_state.md R30). -/

namespace Sys2Proof.Machine

/-! ### PC (R26) -/

/-- Settles O13: an ordinary instruction that raises does so for its data range, since CALL and RET are not ordinary. -/
theorem ordinaryInstructionsAdvanceByTwo : Obligations.OrdinaryInstructionsAdvanceByTwo := by
  intro i s t ordinary answers
  rcases exec_next_cases answers with ⟨e, raises, rfl⟩ | ⟨-, rfl⟩
  · rcases raised_cases raises with ⟨-, -, rfl⟩ | ⟨-, -, nnn, rfl⟩ | rfl
    · nomatch ordinary
    · nomatch ordinary
    · exact .inr ⟨_, rfl⟩
  · have goesOn : ∀ x, i ≠ .ldVxK x := by
      rintro x rfl
      nomatch ordinary
    exact .inl ⟨completed_exec goesOn, completed_pc_of_ordinary ordinary s⟩

/-! ### The V registers (R23) -/

/-- The registers after an instruction, by the way it writes them: not at all, a result, a result and a flag, a result and the
reset of VF, a flag, or a block. -/
theorem completed_getV {i : Instr} {s : State} {k : Reg} (h : i.writesV s.cfg k = false) :
    (completed i s).getV k = s.getV k := by
  cases i with
  | ldVxNn | addVxNn | ldVxVy | rndVxNn | ldVxDt =>
    exact State.getV_setV_ne _ _ (of_decide_eq_false h)
  | addVxVy | subVxVy | shrVxVy | subnVxVy | shlVxVy =>
    obtain ⟨hx, hf⟩ := Bool.or_eq_false_iff.mp h
    exact State.getV_setVFlag_other s _ _ (of_decide_eq_false hx) (of_decide_eq_false hf)
  | orVxVy | andVxVy | xorVxVy =>
    obtain ⟨hx, hf⟩ := Bool.or_eq_false_iff.mp h
    have kept : ¬ (k = 15 ∧ s.cfg.logicResetsVf = true) := by simpa using hf
    rw [completed, State.advance_getV, State.getV_setVLogic, if_neg kept, if_neg (of_decide_eq_false hx)]
  | drwVxVyN =>
    rw [completed, State.advance_getV, State.getV_setFlag, if_neg (of_decide_eq_false h), State.setFb_getV]
  | ldVxMem x =>
    have beyond : ¬ k.val < x.val + 1 := fun below =>
      of_decide_eq_false h (Fin.le_def.mpr (Nat.le_of_lt_succ below))
    rw [completed, State.advance_getV, State.setI_getV, State.getV_setVRange, Memory.getD_readList, if_neg beyond]
  | seVxNn | sneVxNn | seVxVy | sneVxVy | skpVx | sknpVx => exact State.skipIf_getV s _ k
  | _ => rfl

/-- Settles O14: trap entry writes no register. -/
theorem registersWrittenAreTheTables : Obligations.RegistersWrittenAreTheTables := by
  intro i s t k answers notWritten
  rcases exec_next_cases answers with ⟨e, -, rfl⟩ | ⟨-, rfl⟩
  · rfl
  · exact completed_getV notWritten

/-! ### The display, the stack and I (R24, R27, R30) -/

theorem State.indexAfterBlock_of_off {s : State} {x : Reg} (off : s.cfg.loadStoreIncI = false) :
    s.indexAfterBlock x = s.i := by
  rw [State.indexAfterBlock, off, if_neg Bool.false_ne_true]

/-- The writers of I, the two block transfers only under LOADSTORE_INC_I. -/
def WritesIndex (cfg : Configuration) (i : Instr) : Prop :=
  (∃ nnn, i = .ldINnn nnn) ∨ (∃ x, i = .addIVx x) ∨ (∃ x, i = .ldFVx x) ∨
    (((∃ x, i = .ldMemVx x) ∨ ∃ x, i = .ldVxMem x) ∧ cfg.loadStoreIncI = true)

theorem completed_i {i : Instr} {s : State} (h : ¬ WritesIndex s.cfg i) : (completed i s).i = s.i := by
  cases i with
  | ldINnn nnn => exact absurd (.inl ⟨nnn, rfl⟩) h
  | addIVx x => exact absurd (.inr (.inl ⟨x, rfl⟩)) h
  | ldFVx x => exact absurd (.inr (.inr (.inl ⟨x, rfl⟩))) h
  | ldMemVx x =>
    exact State.indexAfterBlock_of_off (Bool.eq_false_iff.mpr fun on => h (.inr (.inr (.inr ⟨.inl ⟨x, rfl⟩, on⟩))))
  | ldVxMem x =>
    exact State.indexAfterBlock_of_off (Bool.eq_false_iff.mpr fun on => h (.inr (.inr (.inr ⟨.inr ⟨x, rfl⟩, on⟩))))
  | _ => simp [completed]

/-- Settles O15: where the instruction is none of the writers, the part is unchanged. -/
theorem writersOfDisplayStackAndIndex : Obligations.WritersOfDisplayStackAndIndex := by
  intro i s t answers
  rcases exec_next_cases answers with ⟨e, -, rfl⟩ | ⟨-, rfl⟩
  · exact ⟨absurd rfl, absurd rfl, absurd rfl⟩
  · refine ⟨fun changed => ?display, fun changed => ?stack, fun changed => ?index⟩
    case display =>
      by_contra! others
      exact changed (completed_fb others.1 others.2)
    case stack =>
      by_contra! others
      exact changed (completed_stack others.1 others.2)
    case index =>
      by_contra others
      exact changed (completed_i others)

/-! ### Memory (20_memory.md R58) -/

/-- Where a block write changed a byte, the byte lies in the block. -/
theorem Memory.mem_block_of_writeList_ne {m : Memory} {base a : Nat} {l : List Byte}
    (h : Memory.read (Memory.writeList m base l) a ≠ Memory.read m a) : base ≤ a ∧ a < base + l.length := by
  by_contra outside
  exact h (by rw [Memory.read_writeList, if_neg outside])

/-- Settles O16: the two stores write the block at I, which the check of its range holds below 0x1000. -/
theorem onlyTwoInstructionsStore : Obligations.OnlyTwoInstructionsStore := by
  intro i s t a answers changed
  rcases exec_next_cases answers with ⟨e, -, rfl⟩ | ⟨completes, rfl⟩
  · exact absurd rfl changed
  · cases i with
    | ldBVx x =>
      have inside := (raised_ldBVx_eq_none x s).mp completes
      obtain ⟨above, below⟩ := Memory.mem_block_of_writeList_ne changed
      rw [bcdDigits, List.length_cons, List.length_cons, List.length_singleton] at below
      exact .inl ⟨⟨x, rfl⟩, above, by omega, by omega⟩
    | ldMemVx x =>
      have inside := (raised_ldMemVx_eq_none x s).mp completes
      obtain ⟨above, below⟩ := Memory.mem_block_of_writeList_ne changed
      rw [State.getVRange_length] at below
      exact .inr ⟨x, rfl, above, by omega, by omega⟩
    | _ => refine absurd (congrArg (Memory.read · a) (completed_mem ?_ ?_)) changed <;> nofun

/-! ### Keys, configuration, timers, random input (R28, R31; 40_step_cycle.md R123) -/

/-- What a step leaves to others: KEY and the configuration always, and each timer and the random input unless it runs their own
instruction. -/
def LeavesInputs (ran : Except Fault Instr) (s t : State) : Prop :=
  t.key = s.key ∧ t.cfg = s.cfg ∧ ((∀ x, ran ≠ .ok (.ldDtVx x)) → t.dt = s.dt) ∧
    ((∀ x, ran ≠ .ok (.ldStVx x)) → t.st = s.st) ∧
    ((∀ x nn, ran ≠ .ok (.rndVxNn x nn)) → t.randomIn = s.randomIn ∧ t.draws = s.draws)

theorem LeavesInputs.raise (ran : Except Fault Instr) (s : State) (e : Fault) : LeavesInputs ran s (s.raise e) :=
  ⟨rfl, rfl, fun _ => rfl, fun _ => rfl, fun _ => ⟨rfl, rfl⟩⟩

theorem LeavesInputs.completed (i : Instr) (s : State) : LeavesInputs (.ok i) s (completed i s) := by
  refine ⟨completed_key i s, completed_cfg i s, fun h => completed_dt ?_, fun h => completed_st ?_,
    fun h => completed_random ?_⟩
  · rintro x rfl
    exact h x rfl
  · rintro x rfl
    exact h x rfl
  · rintro x nn rfl
    exact h x nn rfl

theorem LeavesInputs.pollKey (ran : Except Fault Instr) (s : State) (x : Reg) : LeavesInputs ran s (s.pollKey x) := by
  rcases s.pollKey_cases x with ⟨-, polled⟩ | ⟨k, -, -, polled⟩ <;> rw [polled] <;>
    exact ⟨rfl, rfl, fun _ => rfl, fun _ => rfl, fun _ => ⟨rfl, rfl⟩⟩

/-- Settles O17, by the four things a step can be. -/
theorem stepLeavesKeysConfigTimersRandom : Obligations.StepLeavesKeysConfigTimersRandom := by
  intro s t answers
  show LeavesInputs s.fetchDecode s t
  rcases step_next_cases answers with ⟨-, ⟨i, fetches, runs⟩ | ⟨e, -, rfl⟩⟩ | ⟨x, -, rfl⟩ | ⟨e, -, rfl⟩
  · rw [fetches]
    rcases exec_next_cases runs with ⟨e, -, rfl⟩ | ⟨-, rfl⟩
    · exact LeavesInputs.raise _ s e
    · exact LeavesInputs.completed i s
  · exact LeavesInputs.raise _ s e
  · exact LeavesInputs.pollKey _ s x
  · exact ⟨rfl, rfl, fun _ => rfl, fun _ => rfl, fun _ => ⟨rfl, rfl⟩⟩

/-! ### What the instructions do not depend on -/

/-- An update of the state passes through an instruction when it passes through trap entry and completion, and does not change
which of the two it is. -/
theorem exec_update {i : Instr} {s t : State} (f : State → State) (sameError : raised i (f s) = raised i s)
    (throughRaise : ∀ e, (f s).raise e = f (s.raise e)) (throughCompletion : completed i (f s) = f (completed i s))
    (h : exec i s = .next t) : exec i (f s) = .next (f t) := by
  rcases exec_next_cases h with ⟨e, raises, rfl⟩ | ⟨completes, rfl⟩
  · rw [exec_of_raises (sameError.trans raises), throughRaise]
  · rw [exec_of_completes (sameError.trans completes), throughCompletion]

/-- An update that leaves PC and passes through a write of it passes through a skip. -/
theorem State.skipIf_update {s : State} (f : State → State) (through : ∀ a, (f s).setPc a = f (s.setPc a))
    (samePc : (f s).pc = s.pc) (c : Bool) : (f s).skipIf c = f (s.skipIf c) := by
  cases c
  · exact (congrArg (fun a => (f s).setPc (a + 2#16)) samePc).trans (through _)
  · exact (congrArg (fun a => (f s).setPc (a + 4#16)) samePc).trans (through _)

/-- The reset of VF is a switch of the configuration, so an update that keeps the configuration and passes through both writes
passes through the result of a bitwise instruction. -/
theorem State.setVLogic_update {s : State} (f : State → State) (through : ∀ x b, (f s).setV x b = f (s.setV x b))
    (throughFlag : ∀ x r b, (f s).setVFlag x r b = f (s.setVFlag x r b))
    (sameCfg : (f s).cfg = s.cfg) (x : Reg) (r : Byte) : (f s).setVLogic x r = f (s.setVLogic x r) := by
  unfold State.setVLogic
  rw [sameCfg]
  split
  · exact throughFlag x r _
  · exact through x r

/-- The errors depend on the stack and on I alone. -/
theorem raised_congr (i : Instr) {s t : State} (stack : t.stack = s.stack) (index : t.i = s.i) : raised i t = raised i s := by
  unfold raised
  rw [stack, index]

/-- The configuration as a write to the state. -/
def State.withCfg (cfg : Configuration) (s : State) : State := { s with cfg := cfg }

theorem completed_withCfg {i : Instr} (h : i.dependsOnConfig = false) (cfg : Configuration) (s : State) :
    completed i (s.withCfg cfg) = (completed i s).withCfg cfg := by
  cases i with
  | orVxVy | andVxVy | xorVxVy | shrVxVy | shlVxVy | jpV0Nnn | drwVxVyN | ldMemVx | ldVxMem => nomatch h
  | seVxNn | sneVxNn | seVxVy | sneVxVy | skpVx | sknpVx => exact State.skipIf_update (State.withCfg cfg) (fun _ => rfl) rfl _
  | _ => rfl

/-- Settles O18: the other 25 instructions read no switch of the configuration. -/
theorem configurationReachesNineInstructions : Obligations.ConfigurationReachesNineInstructions := by
  intro i s t cfg independent answers
  exact exec_update (State.withCfg cfg) (raised_congr i rfl rfl) (fun _ => rfl) (completed_withCfg independent cfg s) answers

theorem completed_tickTimers {i : Instr} (hr : ∀ x, i ≠ .ldVxDt x) (hd : ∀ x, i ≠ .ldDtVx x) (hs : ∀ x, i ≠ .ldStVx x)
    (s : State) : completed i s.tickTimers = (completed i s).tickTimers := by
  cases i with
  | ldVxDt x => exact absurd rfl (hr x)
  | ldDtVx x => exact absurd rfl (hd x)
  | ldStVx x => exact absurd rfl (hs x)
  | seVxNn | sneVxNn | seVxVy | sneVxVy | skpVx | sknpVx => exact State.skipIf_update State.tickTimers (fun _ => rfl) rfl _
  | orVxVy | andVxVy | xorVxVy =>
    exact congrArg State.advance (State.setVLogic_update State.tickTimers (fun _ _ => rfl) (fun _ _ _ => rfl) rfl _ _)
  | ldVxMem x =>
    dsimp only [completed, State.setVRange, State.setI, State.advance, State.setPc, State.tickTimers, State.getV,
      State.indexAfterBlock]
  | _ => rfl

/-- Settles O19: the instruction neither reads nor writes a timer, so the tick passes through it. -/
theorem ticksCommuteWithInstructions : Obligations.TicksCommuteWithInstructions := by
  intro i s t hr hd hs answers
  exact exec_update State.tickTimers (raised_congr i rfl rfl) (fun _ => rfl) (completed_tickTimers hr hd hs s) answers

theorem completed_setFb {i : Instr} (hc : i ≠ .cls) (hd : ∀ x y n, i ≠ .drwVxVyN x y n) (f : Frame) (s : State) :
    completed i (s.setFb f) = (completed i s).setFb f := by
  cases i with
  | cls => exact absurd rfl hc
  | drwVxVyN x y n => exact absurd rfl (hd x y n)
  | seVxNn | sneVxNn | seVxVy | sneVxVy | skpVx | sknpVx =>
    exact State.skipIf_update (State.setFb · f) (fun _ => rfl) rfl _
  | orVxVy | andVxVy | xorVxVy =>
    exact congrArg State.advance (State.setVLogic_update (State.setFb · f) (fun _ _ => rfl) (fun _ _ _ => rfl) rfl _ _)
  | _ => rfl

/-- Settles O20: CLS writes the display without reading it, and the others pass it on. -/
theorem displayIsHiddenFromOtherInstructions : Obligations.DisplayIsHiddenFromOtherInstructions := by
  intro i s t f notDrw answers
  by_cases isCls : i = .cls
  · subst isCls
    obtain rfl : _ = t := Host.Outcome.next.inj ((exec_cls s).symm.trans answers)
    exact ⟨Frame.blank, rfl⟩
  · exact ⟨f, exec_update (State.setFb · f) (raised_congr i rfl rfl) (fun _ => rfl) (completed_setFb isCls notDrw f s) answers⟩

end Sys2Proof.Machine
end

section
/-! PROOFS. Memory as data (log 30) and as what the fetch reads (20_memory.md R62). -/

namespace Sys2Proof.Machine

/-! ### The canonical form has one representative -/

theorem Memory.read_of_notMem {m : Memory} {a : Nat} (h : ∀ c ∈ m, c.1 ≠ a) : Memory.read m a = unlistedByte := by
  induction m with
  | nil => rfl
  | cons c m ih =>
    rw [Memory.read, if_neg (h c List.mem_cons_self)]
    exact ih fun d hd => h d (List.mem_cons_of_mem c hd)

@[simp] theorem Memory.read_cons_self (c : Host.Cell) (m : Memory) : Memory.read (c :: m) c.1 = c.2 := if_pos rfl

theorem Memory.read_cons_ne {c : Host.Cell} {a : Nat} (h : c.1 ≠ a) (m : Memory) :
    Memory.read (c :: m) a = Memory.read m a := if_neg h

/-- A listed cell tells a canonical memory from one whose addresses all lie above the cell's. -/
theorem Memory.read_head_ne {c : Host.Cell} {m m' : Memory} (wf : Memory.wf (c :: m) = true)
    (above : ∀ d ∈ m', c.1 < d.1) : Memory.read (c :: m) c.1 ≠ Memory.read m' c.1 := by
  obtain ⟨⟨-, listed⟩, -, -⟩ := (Memory.wf_cons c m).mp wf
  rw [Memory.read_cons_self, Memory.read_of_notMem fun d hd => (above d hd).ne']
  exact listed

/-- The addresses of a canonical memory lie at or above its head's. -/
theorem Memory.above_of_lt_head {a : Nat} {c : Host.Cell} {m : Memory} (wf : Memory.wf (c :: m) = true) (h : a < c.1) :
    ∀ d ∈ c :: m, a < d.1 := by
  obtain ⟨-, rising, -⟩ := (Memory.wf_cons c m).mp wf
  intro d hd
  rcases List.mem_cons.mp hd with rfl | tail
  · exact h
  · exact h.trans (rising d tail)

theorem Memory.head_le_0xFFF {c : Host.Cell} {m : Memory} (wf : Memory.wf (c :: m) = true) : c.1 ≤ 0xFFF := by
  obtain ⟨⟨inside, -⟩, -, -⟩ := (Memory.wf_cons c m).mp wf
  exact Nat.le_of_lt_succ inside

/-- Settles O26, by induction on the lists: the heads are the same cell, or the lower one of them tells the memories apart. -/
theorem equalBytesEqualMemories : Obligations.EqualBytesEqualMemories := by
  intro m
  induction m with
  | nil =>
    intro m' _ wf' agree
    cases m' with
    | nil => rfl
    | cons c m' => exact absurd (agree c.1 (Memory.head_le_0xFFF wf')).symm (Memory.read_head_ne wf' nofun)
  | cons c m ih =>
    intro m' wf wf' agree
    cases m' with
    | nil => exact absurd (agree c.1 (Memory.head_le_0xFFF wf)) (Memory.read_head_ne wf nofun)
    | cons d m' =>
      rcases Nat.lt_trichotomy c.1 d.1 with lower | same | higher
      · exact absurd (agree c.1 (Memory.head_le_0xFFF wf)) (Memory.read_head_ne wf (Memory.above_of_lt_head wf' lower))
      · have sameByte : c.2 = d.2 := by
          have := agree c.1 (Memory.head_le_0xFFF wf)
          rwa [Memory.read_cons_self, same, Memory.read_cons_self] at this
        obtain rfl : c = d := Prod.ext same sameByte
        obtain ⟨-, rising, wfTail⟩ := (Memory.wf_cons c m).mp wf
        obtain ⟨-, rising', wfTail'⟩ := (Memory.wf_cons c m').mp wf'
        congr 1
        refine ih m' wfTail wfTail' fun a inside => ?_
        by_cases head : c.1 = a
        · subst head
          rw [Memory.read_of_notMem fun d hd => (rising d hd).ne', Memory.read_of_notMem fun d hd => (rising' d hd).ne']
        · have := agree a inside
          rwa [Memory.read_cons_ne head, Memory.read_cons_ne head] at this
      · exact absurd (agree d.1 (Memory.head_le_0xFFF wf')).symm
          (Memory.read_head_ne wf' (Memory.above_of_lt_head wf higher))

/-! ### A stored word is fetched (R62) -/

theorem State.memWrite_ok {s t : State} {a : Nat} {b : Byte} (h : s.memWrite a b = .ok t) :
    t = s.setMem (Memory.write s.mem a b) := by
  unfold State.memWrite at h
  split at h
  · nomatch h
  · exact (Except.ok.inj h).symm

/-- Settles O27: after the two writes the bytes at PC are those of the word, and PC and EXEC are as before. -/
theorem storedWordIsFetchedNext : Obligations.StoredWordIsFetchedNext := by
  intro s t u w i running inside decodes first second
  obtain rfl := State.memWrite_ok first
  obtain rfl := State.memWrite_ok second
  refine step_of_wordAt running rfl inside ?_ decodes
  have size := w.isLt
  have apart : s.pc.toNat ≠ s.pc.toNat + 1 := (Nat.lt_succ_self _).ne
  simp only [State.wordAt, State.setMem_pc, State.setMem_mem, Memory.read_write, apart, if_false, if_true,
    BitVec.toNat_ofNat]
  omega

end Sys2Proof.Machine
end

section
/-! PROOFS. Jump, call, return and skip (41_flow.md R140 to R143, 42_skip.md R150 to R156): the words, and where each goes. -/

namespace Sys2Proof.Machine

/-! ### Jump, call and return -/

/-- Settles O28: the answer is one write of PC. -/
theorem jumpGoesToItsAddress : Obligations.JumpGoesToItsAddress :=
  ⟨fun nnn => decodeWord_ofNat rfl (formatNNN_eq 0x1#4 nnn),
    fun nnn _ => ⟨_, exec_of_completes rfl, toNat_addrOperand nnn, rfl, fun _ => rfl⟩⟩

/-- Settles O29: the depth of the stack decides between the push and the trap. -/
theorem callPushesReturnAddress : Obligations.CallPushesReturnAddress := by
  refine ⟨fun nnn => decodeWord_ofNat rfl (formatNNN_eq 0x2#4 nnn), fun nnn s => ⟨fun room => ?pushes, fun full => ?traps⟩⟩
  case pushes =>
    exact ⟨_, exec_of_completes ((raised_callNnn_eq_none nnn s).mpr room), rfl, toNat_addrOperand nnn, rfl, fun _ => rfl⟩
  case traps => exact exec_of_raises (if_neg (Nat.not_lt.mpr full))

theorem completed_ret {s : State} {a : Word} {rest : List Word} (h : s.stack = a :: rest) :
    completed .ret s = (s.setStack rest).setPc a := by
  rw [completed, h, List.tail_cons, List.headD_cons]

theorem exec_ret_of_cons {s : State} {a : Word} {rest : List Word} (h : s.stack = a :: rest) :
    exec .ret s = .next ((s.setStack rest).setPc a) := by
  rw [← completed_ret h]
  exact exec_of_completes ((raised_ret_eq_none s).mpr (h ▸ List.cons_ne_nil a rest))

/-- Settles O30: an entry on the stack decides between the pop and the trap. -/
theorem returnPopsIntoPc : Obligations.ReturnPopsIntoPc :=
  ⟨decodeWord_encodeWord .ret rfl, fun _ =>
    ⟨fun _ _ stack => ⟨_, exec_ret_of_cons stack, rfl, rfl, rfl, fun _ => rfl⟩, fun empty => exec_of_raises (if_pos empty)⟩⟩

/-- Settles O32: the return finds the entry that the call pushed on top. -/
theorem returnUndoesCall : Obligations.ReturnUndoesCall := by
  intro nnn s room
  exact ⟨_, _, exec_of_completes ((raised_callNnn_eq_none nnn s).mpr room), exec_ret_of_cons rfl, rfl⟩

theorem topDigit_of_val {nnn : BitVec 12} {x : Reg} (h : x.val = nnn.toNat / 256) : topDigit nnn = x := by
  have size := nnn.isLt
  apply Fin.ext
  rw [topDigit, BitVec.val_toFin, BitVec.extractLsb'_toNat, Nat.shiftRight_eq_div_pow, h]
  omega

/-- Settles O31: JUMP_BASE selects the register, and its byte is added to the address. -/
theorem indexedJumpAddsRegister : Obligations.IndexedJumpAddsRegister := by
  refine ⟨fun nnn => decodeWord_ofNat rfl (formatNNN_eq 0xB#4 nnn), fun nnn s =>
    ⟨_, exec_of_completes rfl, fun base => ?v0, fun base x digit => ?vx, rfl, fun _ => rfl⟩⟩
  case v0 => rw [completed, State.setPc_pc, toNat_addrOperand_add_zext16, State.jumpOffset, base]
  case vx => rw [completed, State.setPc_pc, toNat_addrOperand_add_zext16, State.jumpOffset, base, topDigit_of_val digit]

/-! ### Skips -/

/-- What the six skips have in common (R156): a condition that holds when P does and fails when Q does sends PC on by 4 or 2. -/
theorem skip_answers {i : Instr} {s : State} {c : Bool} {P Q : Prop} (skips : exec i s = .next (s.skipIf c))
    (taken : P → c = true) (notTaken : Q → c = false) :
    ∃ t, exec i s = .next t ∧ (P → t.pc = s.pc + 4#16) ∧ (Q → t.pc = s.pc + 2#16) ∧ t = { s with pc := t.pc } ∧
      s.SameBytes t := by
  refine ⟨_, skips, fun p => ?_, fun q => ?_, ?_, fun a => ?_⟩
  · rw [State.skipIf_pc, if_pos (taken p)]
  · rw [State.skipIf_pc, notTaken q, if_neg Bool.false_ne_true]
  · cases c <;> rfl
  · rw [State.skipIf_mem]

theorem decide_eq_of_toNat_eq {a b : Byte} (h : a.toNat = b.toNat) : decide (a = b) = true :=
  decide_eq_true (BitVec.eq_of_toNat_eq h)

theorem decide_eq_of_toNat_ne {a b : Byte} (h : a.toNat ≠ b.toNat) : decide (a = b) = false :=
  decide_eq_false fun e => h (congrArg BitVec.toNat e)

theorem decide_ne_of_toNat_ne {a b : Byte} (h : a.toNat ≠ b.toNat) : decide (a ≠ b) = true :=
  decide_eq_true fun e => h (congrArg BitVec.toNat e)

theorem decide_ne_of_toNat_eq {a b : Byte} (h : a.toNat = b.toNat) : decide (a ≠ b) = false :=
  decide_eq_false (not_not_intro (BitVec.eq_of_toNat_eq h))

/-- Settles O33: the condition compares Vx with the immediate. -/
theorem skipComparesImmediate : Obligations.SkipComparesImmediate :=
  ⟨fun x nn => ⟨decodeWord_ofNat rfl (formatXNN_eq 0x3#4 x nn), decodeWord_ofNat rfl (formatXNN_eq 0x4#4 x nn)⟩,
    fun _ _ _ => ⟨skip_answers (exec_of_completes rfl) decide_eq_of_toNat_eq decide_eq_of_toNat_ne,
      skip_answers (exec_of_completes rfl) decide_ne_of_toNat_ne decide_ne_of_toNat_eq⟩⟩

/-- Settles O34: the condition compares Vx with Vy. -/
theorem skipComparesRegisters : Obligations.SkipComparesRegisters :=
  ⟨fun x y => ⟨decodeWord_ofNat rfl (formatXYN_eq 0x5#4 x y 0x0#4), decodeWord_ofNat rfl (formatXYN_eq 0x9#4 x y 0x0#4)⟩,
    fun _ _ _ => ⟨skip_answers (exec_of_completes rfl) decide_eq_of_toNat_eq decide_eq_of_toNat_ne,
      skip_answers (exec_of_completes rfl) decide_ne_of_toNat_ne decide_ne_of_toNat_eq⟩⟩

theorem State.val_lowNibble (s : State) (x : Reg) : (s.lowNibble x).val = (s.getV x).toNat % 16 := by
  rw [State.lowNibble, BitVec.val_toFin, BitVec.extractLsb'_toNat, Nat.shiftRight_zero]

/-- Settles O35: the condition is the flag of the key that the low nibble of Vx names. -/
theorem skipTestsKey : Obligations.SkipTestsKey := by
  refine ⟨fun x => ⟨decodeWord_ofNat rfl (formatXNN_eq_pattern 0xE#4 x 0x9E#8),
    decodeWord_ofNat rfl (formatXNN_eq_pattern 0xE#4 x 0xA1#8)⟩, fun x k s nibble => ?_⟩
  obtain rfl : s.lowNibble x = k := Fin.ext ((s.val_lowNibble x).trans nibble)
  exact ⟨skip_answers (exec_of_completes rfl) id id,
    skip_answers (exec_of_completes rfl) (fun up => by rw [up]; rfl) (fun down => by rw [down]; rfl)⟩

end Sys2Proof.Machine
end

section
/-! PROOFS. Copy, addition of an immediate, bitwise instructions, subtraction and shifts (43_alu.md R161 to R172). -/

namespace Sys2Proof.Machine

/-! ### One register -/

/-- What an instruction that writes its result into Vx and nothing else leaves. -/
theorem result_answers {i : Instr} {s : State} {x : Reg} {r : Byte} (runs : exec i s = .next (s.setV x r).advance) :
    ∃ t, exec i s = .next t ∧ t.getV x = r ∧ (∀ k, k ≠ x → t.getV k = s.getV k) ∧ t.pc = s.pc + 2#16 ∧
      t = { s with v := t.v, pc := t.pc } ∧ s.SameBytes t :=
  ⟨_, runs, State.getV_setV_self s x r, fun _ other => State.getV_setV_ne s r other, rfl, rfl, fun _ => rfl⟩

/-- Settles O37: the result is Vy. -/
theorem copyRegister : Obligations.CopyRegister :=
  ⟨fun x y => decodeWord_ofNat rfl (formatXYN_eq 0x8#4 x y 0x0#4), fun _ _ _ => result_answers (exec_of_completes rfl)⟩

/-- Settles O38: the result is the sum of bytes, and VF is a register like the others. -/
theorem addImmediateWrapsWithoutFlag : Obligations.AddImmediateWrapsWithoutFlag := by
  refine ⟨fun x nn => decodeWord_ofNat rfl (formatXNN_eq 0x7#4 x nn), fun x nn s => ?_⟩
  obtain ⟨t, runs, result, others⟩ := result_answers (exec_of_completes (i := .addVxNn x nn) (s := s) rfl)
  exact ⟨t, runs, by rw [result, BitVec.toNat_add], others⟩

/-! ### Bitwise instructions (R163 to R165) -/

/-- Result into Vx, then the reset of VF where the configuration has it. -/
theorem logic_answers {i : Instr} {s : State} {x : Reg} {r : Byte} (runs : exec i s = .next (s.setVLogic x r).advance) :
    ∃ t, exec i s = .next t ∧ (x ≠ 15 ∨ s.cfg.logicResetsVf = false → t.getV x = r) ∧
      (s.cfg.logicResetsVf = true → t.getV 15 = 0#8) ∧
      (∀ k, k ≠ x → k ≠ 15 ∨ s.cfg.logicResetsVf = false → t.getV k = s.getV k) ∧
      t.pc = s.pc + 2#16 ∧ t = { s with v := t.v, pc := t.pc } ∧ s.SameBytes t := by
  have kept : ∀ k : Reg, k ≠ 15 ∨ s.cfg.logicResetsVf = false → ¬ (k = 15 ∧ s.cfg.logicResetsVf = true) := by
    rintro k (notFlag | off) ⟨isFlag, on⟩
    · exact notFlag isFlag
    · nomatch off.symm.trans on
  refine ⟨_, runs, fun h => ?result, fun on => ?reset, fun k other h => ?others, ?pc, ?frame, fun a => ?memory⟩
  case result => rw [State.advance_getV, State.getV_setVLogic, if_neg (kept x h), if_pos rfl]
  case reset => rw [State.advance_getV, State.getV_setVLogic, if_pos ⟨rfl, on⟩]
  case others => rw [State.advance_getV, State.getV_setVLogic, if_neg (kept k h), if_neg other]
  case pc => rw [State.advance_pc, State.setVLogic_pc]
  case frame =>
    unfold State.setVLogic
    split <;> rfl
  case memory => rw [State.advance_mem, State.setVLogic_mem]

/-- Settles O39: the three instructions differ in the result alone, and its bits are the operation on the bits. -/
theorem logicBitByBit : Obligations.LogicBitByBit := by
  refine ⟨fun x y => ⟨decodeWord_ofNat rfl (formatXYN_eq_pattern 0x8#4 x y 0x1#4),
    decodeWord_ofNat rfl (formatXYN_eq_pattern 0x8#4 x y 0x2#4),
    decodeWord_ofNat rfl (formatXYN_eq_pattern 0x8#4 x y 0x3#4)⟩, fun x y s i op h => ?_⟩
  obtain ⟨r, runs, bits⟩ : ∃ r : Byte, exec i s = .next (s.setVLogic x r).advance ∧
      ∀ j, r.getLsbD j = op ((s.getV x).getLsbD j) ((s.getV y).getLsbD j) := by
    rcases h with ⟨rfl, rfl⟩ | ⟨rfl, rfl⟩ | ⟨rfl, rfl⟩
    · exact ⟨_, exec_of_completes rfl, fun j => BitVec.getLsbD_or⟩
    · exact ⟨_, exec_of_completes rfl, fun j => BitVec.getLsbD_and⟩
    · exact ⟨_, exec_of_completes rfl, fun j => BitVec.getLsbD_xor⟩
  obtain ⟨t, answers, result, rest⟩ := logic_answers runs
  exact ⟨t, answers, fun h j => by rw [result h, bits], rest⟩

/-! ### A result and a flag (R167 to R172) -/

/-- Result into Vx, then the flag into VF, which holds it also when x = 15. -/
theorem flag_answers {i : Instr} {s : State} {x : Reg} {r f : Byte} (runs : exec i s = .next (s.setVFlag x r f).advance) :
    ∃ t, exec i s = .next t ∧ (x ≠ 15 → t.getV x = r) ∧ t.getV 15 = f ∧
      (∀ k, k ≠ x → k ≠ 15 → t.getV k = s.getV k) ∧ t.pc = s.pc + 2#16 ∧ t = { s with v := t.v, pc := t.pc } ∧
      s.SameBytes t :=
  ⟨_, runs, State.getV_setVFlag_result s r f, State.getV_setVFlag_flag s x r f,
    fun _ other notFlag => State.getV_setVFlag_other s r f other notFlag, rfl, rfl, fun _ => rfl⟩

theorem toInt_toNat_sub (a b : Byte) : ((a - b).toNat : Int) = ((a.toNat : Int) - (b.toNat : Int)) % 256 := by
  have := a.isLt
  have := b.isLt
  rw [BitVec.toNat_sub]
  omega

theorem noBorrowFlag_of_ge {a b : Byte} (h : a.toNat ≥ b.toNat) : noBorrowFlag a b = 1#8 := by
  rw [noBorrowFlag, decide_eq_true h, flagByte, if_pos rfl]

theorem noBorrowFlag_of_lt {a b : Byte} (h : a.toNat < b.toNat) : noBorrowFlag a b = 0#8 := by
  rw [noBorrowFlag, decide_eq_false (Nat.not_le.mpr h), flagByte, if_neg Bool.false_ne_true]

/-- Settles O41: both are a subtraction of bytes, with the operands one way round or the other. -/
theorem subtractSetsNoBorrow : Obligations.SubtractSetsNoBorrow := by
  refine ⟨fun x y => ⟨decodeWord_ofNat rfl (formatXYN_eq_pattern 0x8#4 x y 0x5#4),
    decodeWord_ofNat rfl (formatXYN_eq_pattern 0x8#4 x y 0x7#4)⟩, fun x y s i a b h => ?_⟩
  have runs : exec i s = .next (s.setVFlag x (a - b) (noBorrowFlag a b)).advance := by
    rcases h with ⟨rfl, rfl, rfl⟩ | ⟨rfl, rfl, rfl⟩ <;> exact exec_of_completes rfl
  obtain ⟨t, answers, result, flag, rest⟩ := flag_answers runs
  exact ⟨t, answers, fun notFlag => by rw [result notFlag, toInt_toNat_sub], fun h => by rw [flag, noBorrowFlag_of_ge h],
    fun h => by rw [flag, noBorrowFlag_of_lt h], rest⟩

theorem toNat_flagByte_getLsbD (b : Byte) (j : Nat) : (flagByte (b.getLsbD j)).toNat = b.toNat / 2 ^ j % 2 := by
  rw [BitVec.getLsbD, Nat.testBit_eq_decide_div_mod_eq, flagByte]
  rcases Nat.mod_two_eq_zero_or_one (b.toNat / 2 ^ j) with bit | bit <;> rw [bit] <;> rfl

theorem toNat_shiftOutRight (b : Byte) : (shiftOutRight b).toNat = b.toNat % 2 := by
  rw [shiftOutRight, toNat_flagByte_getLsbD, Nat.pow_zero, Nat.div_one]

theorem toNat_shiftOutLeft (b : Byte) : (shiftOutLeft b).toNat = b.toNat / 128 := by
  have := b.isLt
  rw [shiftOutLeft, toNat_flagByte_getLsbD]
  omega

theorem toNat_ushiftRight_one (b : Byte) : (b >>> 1).toNat = b.toNat / 2 := by
  rw [BitVec.toNat_ushiftRight, Nat.shiftRight_eq_div_pow, Nat.pow_one]

theorem toNat_shiftLeft_one (b : Byte) : (b <<< 1).toNat = b.toNat * 2 % 256 := by
  rw [BitVec.toNat_shiftLeft, Nat.shiftLeft_eq, Nat.pow_one]

theorem State.toNat_shiftSource {s : State} {x y : Reg} {a : Nat}
    (h : (s.cfg.shiftSrc = .vx ∧ a = (s.getV x).toNat) ∨ (s.cfg.shiftSrc = .vy ∧ a = (s.getV y).toNat)) :
    (s.shiftSource x y).toNat = a := by
  rcases h with ⟨source, rfl⟩ | ⟨source, rfl⟩ <;> rw [State.shiftSource, source]

/-- Settles O42: both shift the byte that SHIFT_SRC selects, and each flag is the bit that leaves it. -/
theorem shiftByOneSetsBitOut : Obligations.ShiftByOneSetsBitOut := by
  refine ⟨fun x y => ⟨decodeWord_ofNat rfl (formatXYN_eq_pattern 0x8#4 x y 0x6#4),
    decodeWord_ofNat rfl (formatXYN_eq_pattern 0x8#4 x y 0xE#4)⟩, fun x y s a h => ?_⟩
  have source := State.toNat_shiftSource h
  constructor
  · obtain ⟨t, answers, result, flag, rest⟩ := flag_answers (exec_of_completes (i := .shrVxVy x y) (s := s) rfl)
    exact ⟨t, answers, fun notFlag => by rw [result notFlag, toNat_ushiftRight_one, source],
      by rw [flag, toNat_shiftOutRight, source], rest⟩
  · obtain ⟨t, answers, result, flag, rest⟩ := flag_answers (exec_of_completes (i := .shlVxVy x y) (s := s) rfl)
    exact ⟨t, answers, fun notFlag => by rw [result notFlag, toNat_shiftLeft_one, source],
      by rw [flag, toNat_shiftOutLeft, source], rest⟩

end Sys2Proof.Machine
end

section
/-! PROOFS. Index register and memory instructions (44_memory_index.md R180 to R186): the words, the sums, and the blocks stored
and loaded at I. -/

namespace Sys2Proof.Machine

/-! ### The index register -/

/-- What an instruction that writes I and nothing else leaves. -/
theorem index_answers {i : Instr} {s : State} {a : Word} (runs : exec i s = .next (s.setI a).advance) :
    ∃ t, exec i s = .next t ∧ t.i.toNat = a.toNat ∧ t.pc = s.pc + 2#16 ∧ t = { s with i := t.i, pc := t.pc } ∧
      s.SameBytes t :=
  ⟨_, runs, rfl, rfl, rfl, fun _ => rfl⟩

/-- Settles O43: the address is zero-extended into I. -/
theorem loadIndex : Obligations.LoadIndex := by
  refine ⟨fun nnn => decodeWord_ofNat rfl (formatNNN_eq 0xA#4 nnn), fun nnn s => ?_⟩
  rw [← toNat_addrOperand nnn]
  exact index_answers (exec_of_completes rfl)

theorem toNat_glyphAddress (d : Fin 16) : (glyphAddress d).toNat = 0x050 + 5 * d.val := by
  rw [glyphAddress, fontBase, glyphBytes, BitVec.toNat_ofNat]
  omega

/-- Settles O44: the sum is one of 16-bit words, and the glyph address lies far below 65536. -/
theorem indexAddsAndFontAddress : Obligations.IndexAddsAndFontAddress := by
  refine ⟨fun x => ⟨decodeWord_ofNat rfl (formatXNN_eq_pattern 0xF#4 x 0x1E#8),
    decodeWord_ofNat rfl (formatXNN_eq_pattern 0xF#4 x 0x29#8)⟩, fun x s => ⟨?sum, ?glyph⟩⟩
  case sum =>
    rw [show (s.i.toNat + (s.getV x).toNat) % 65536 = (s.i + zext16 (s.getV x)).toNat by
      rw [BitVec.toNat_add, toNat_zext16]]
    exact index_answers (exec_of_completes rfl)
  case glyph =>
    rw [← s.val_lowNibble x, ← toNat_glyphAddress]
    exact index_answers (exec_of_completes rfl)

theorem State.indexAfterBlock_of_on {s : State} {x : Reg} (on : s.cfg.loadStoreIncI = true) :
    (s.indexAfterBlock x).toNat = (s.i.toNat + x.val + 1) % 65536 := by
  have := x.isLt
  rw [State.indexAfterBlock, on, if_pos rfl, BitVec.toNat_add, BitVec.toNat_ofNat]
  omega

/-! ### Stores -/

theorem Memory.read_writeList_of_outside {m : Memory} {base a : Nat} {l : List Byte} (h : a < base ∨ base + l.length ≤ a) :
    Memory.read (Memory.writeList m base l) a = Memory.read m a := by
  rw [Memory.read_writeList, if_neg (by omega)]

theorem Memory.read_writeList_of_lt {m : Memory} {base k : Nat} {l : List Byte} (h : k < l.length) :
    Memory.read (Memory.writeList m base l) (base + k) = l[k] := by
  rw [Memory.read_writeList, if_pos ⟨Nat.le_add_right base k, Nat.add_lt_add_left h base⟩, Nat.add_sub_cancel_left]
  exact List.getD_eq_getElem l 0#8 h

/-- Settles O45: the block at I is the three digits, each below 256. -/
theorem decimalDigitsStored : Obligations.DecimalDigitsStored := by
  refine ⟨fun x => decodeWord_ofNat rfl (formatXNN_eq_pattern 0xF#4 x 0x33#8),
    fun x s => ⟨fun inside => ?stores, fun beyond => ?traps⟩⟩
  case traps => exact exec_of_raises (if_neg (Nat.not_le.mpr beyond))
  case stores =>
    have byte := (s.getV x).isLt
    have digits : (bcdDigits (s.getV x)).length = 3 := rfl
    refine ⟨_, exec_of_completes ((raised_ldBVx_eq_none x s).mpr inside), ?hundreds, ?tens, ?ones, fun a outside => ?others,
      rfl, rfl⟩
    case hundreds =>
      refine (congrArg BitVec.toNat (Memory.read_writeList_of_lt (k := 0) (by omega))).trans ?_
      exact Nat.mod_eq_of_lt (by omega)
    case tens =>
      refine (congrArg BitVec.toNat (Memory.read_writeList_of_lt (k := 1) (by omega))).trans ?_
      exact Nat.mod_eq_of_lt (by omega)
    case ones =>
      refine (congrArg BitVec.toNat (Memory.read_writeList_of_lt (k := 2) (by omega))).trans ?_
      exact Nat.mod_eq_of_lt (by omega)
    case others => exact Memory.read_writeList_of_outside (by omega)

theorem Memory.read_store_getVRange {s : State} {m : Memory} {base : Nat} {x k : Reg} (h : k ≤ x) :
    Memory.read (Memory.writeList m base (s.getVRange x)) (base + k.val) = s.getV k := by
  have inBlock : k.val < (s.getVRange x).length := by
    rw [State.getVRange_length]
    exact Nat.lt_succ_of_le h
  rw [Memory.read_writeList_of_lt inBlock, State.getVRange_getElem]

/-- Settles O46: the block at I is V0 to Vx. -/
theorem registersStoredFromIndex : Obligations.RegistersStoredFromIndex := by
  refine ⟨fun x => decodeWord_ofNat rfl (formatXNN_eq_pattern 0xF#4 x 0x55#8),
    fun x s => ⟨fun inside => ?stores, fun beyond => ?traps⟩⟩
  case traps => exact exec_of_raises (if_neg (Nat.not_le.mpr beyond))
  case stores =>
    refine ⟨_, exec_of_completes ((raised_ldMemVx_eq_none x s).mpr inside), fun k stored => Memory.read_store_getVRange stored,
      fun a outside => Memory.read_writeList_of_outside ?_, State.indexAfterBlock_of_off, State.indexAfterBlock_of_on, rfl, rfl⟩
    rw [State.getVRange_length]
    omega

/-! ### Loads -/

theorem State.getV_load (s : State) (base : Nat) (x k : Reg) :
    (s.setVRange (Memory.readList s.mem base (x.val + 1))).getV k =
      if k ≤ x then Memory.read s.mem (base + k.val) else s.getV k := by
  rw [State.getV_setVRange, Memory.getD_readList]
  simp only [Nat.lt_succ_iff, Fin.le_def]

/-- Settles O47: V0 to Vx become the block at I. -/
theorem registersLoadedFromIndex : Obligations.RegistersLoadedFromIndex := by
  refine ⟨fun x => decodeWord_ofNat rfl (formatXNN_eq_pattern 0xF#4 x 0x65#8),
    fun x s => ⟨fun inside => ?loads, fun beyond => ?traps⟩⟩
  case traps => exact exec_of_raises (if_neg (Nat.not_le.mpr beyond))
  case loads =>
    refine ⟨_, exec_of_completes ((raised_ldVxMem_eq_none x s).mpr inside), fun k loaded => ?loaded, fun k above => ?kept,
      fun off => ?index, fun on => ?indexMoved, ?pc, ?frame, fun a => ?memory⟩
    case loaded => rw [completed, State.advance_getV, State.setI_getV, State.getV_load, if_pos loaded]
    case kept => rw [completed, State.advance_getV, State.setI_getV, State.getV_load, if_neg (not_le.mpr above)]
    case index => rw [completed, State.advance_i, State.setI_i, State.indexAfterBlock_of_off off]
    case indexMoved => rw [completed, State.advance_i, State.setI_i, State.indexAfterBlock_of_on on]
    case pc => rw [completed, State.advance_pc, State.setI_pc, State.setVRange_pc]
    case frame => dsimp only [completed, State.setVRange, State.setI, State.advance, State.setPc]
    case memory => rw [completed, State.advance_mem, State.setI_mem, State.setVRange_mem]

/-- Settles O48: the load reads the block that the store wrote. -/
theorem loadRestoresStoredRegisters : Obligations.LoadRestoresStoredRegisters := by
  intro x s t u v inside stores sameMem sameIndex loads k k_le_x
  obtain rfl : completed (.ldMemVx x) s = t :=
    Host.Outcome.next.inj ((exec_of_completes ((raised_ldMemVx_eq_none x s).mpr inside)).symm.trans stores)
  obtain rfl : completed (.ldVxMem x) u = v :=
    Host.Outcome.next.inj ((exec_of_completes ((raised_ldVxMem_eq_none x u).mpr (sameIndex ▸ inside))).symm.trans loads)
  calc (completed (.ldVxMem x) u).getV k
      = Memory.read u.mem (u.i.toNat + k.val) := by
        rw [completed, State.advance_getV, State.setI_getV, State.getV_load, if_pos k_le_x]
    _ = Memory.read (Memory.writeList s.mem s.i.toNat (s.getVRange x)) (s.i.toNat + k.val) := by rw [sameMem, sameIndex]; rfl
    _ = s.getV k := Memory.read_store_getVRange k_le_x

end Sys2Proof.Machine
end

section
/-! PROOFS. DRW (45_display.md R191 to R198): pixel by pixel, under either row modulus, and drawn twice. -/

namespace Sys2Proof.Machine

/-! ### What is drawn -/

/-- The display pixels under the 1 bits of the sprite that DRW draws. -/
def State.hits (s : State) (x y : Reg) (n : Nat) : List (Fin 64 × Fin 32) :=
  spriteHits s.cfg.drawEdge (s.spriteColumn x) (s.spriteRow y) (Memory.readList s.mem s.i.toNat n)

theorem State.mem_hits_iff (s : State) (x y : Reg) (n : Nat) (px : Fin 64) (py : Fin 32) : (px, py) ∈ s.hits x y n ↔
    s.SpriteHits ((s.getV x).toNat % 64) ((s.getV y).toNat % s.cfg.drawYMod.value) n px py :=
  s.mem_spriteHits_iff x y n px py

theorem State.drawn_spec (s : State) (x y : Reg) {n : Nat} (height : n ≤ 15) :
    (∀ px py, Frame.get (s.drawn x y n).1 px py =
      if (px, py) ∈ s.hits x y n then !Frame.get s.fb px py else Frame.get s.fb px py) ∧
    (s.drawn x y n).2 = (false || (s.hits x y n).any fun p => Frame.get s.fb p.1 p.2) :=
  drawRows_spec _ _ _ _ (by rw [Memory.length_readList]; omega) _

theorem State.get_drawn (s : State) (x y : Reg) {n : Nat} (height : n ≤ 15) (px : Fin 64) (py : Fin 32) :
    Frame.get (s.drawn x y n).1 px py =
      if (px, py) ∈ s.hits x y n then !Frame.get s.fb px py else Frame.get s.fb px py :=
  (s.drawn_spec x y height).1 px py

/-- A set pixel that is hit is one that goes from set to unset (R196). -/
theorem State.drawn_collision_iff (s : State) (x y : Reg) {n : Nat} (height : n ≤ 15) :
    (s.drawn x y n).2 = true ↔
      ∃ px py, Frame.get s.fb px py = true ∧ Frame.get (s.drawn x y n).1 px py = false := by
  rw [(s.drawn_spec x y height).2, Bool.false_or, List.any_eq_true]
  constructor
  · rintro ⟨⟨px, py⟩, hit, wasSet⟩
    exact ⟨px, py, wasSet, by rw [s.get_drawn x y height, if_pos hit, wasSet]; rfl⟩
  · rintro ⟨px, py, wasSet, unset⟩
    rw [s.get_drawn x y height, wasSet] at unset
    split at unset
    · next hit => exact ⟨(px, py), hit, wasSet⟩
    · nomatch unset

theorem completed_drwVxVyN_fb (x y : Reg) (n : Nat) (s : State) :
    (completed (.drwVxVyN x y n) s).fb = (s.drawn x y n).1 := rfl

theorem completed_drwVxVyN_getV (x y : Reg) (n : Nat) (s : State) (k : Reg) :
    (completed (.drwVxVyN x y n) s).getV k = if k = 15 then flagByte (s.drawn x y n).2 else s.getV k := by
  rw [completed, State.advance_getV, State.getV_setFlag, State.setFb_getV]

/-- Settles O50: the pixels that the blitter flips are those of the closed form, and the flag is its collision. -/
theorem drawInvertsPixelsUnderSprite : Obligations.DrawInvertsPixelsUnderSprite := by
  refine ⟨fun x y n height => ?word, fun x y n s height => ⟨fun inside => ?draws, fun beyond => ?traps⟩⟩
  case word =>
    have digit : (BitVec.ofNat 4 n).toNat = n := by
      rw [BitVec.toNat_ofNat]
      omega
    refine decodeWord_ofNat (decide_eq_true height) ((formatXYN_eq 0xD#4 x y (BitVec.ofNat 4 n)).trans ?_)
    rw [digit]
    rfl
  case draws =>
    have completes : raised (.drwVxVyN x y n) s = none := (raised_drwVxVyN_eq_none x y n s).mpr (by omega)
    refine ⟨_, exec_of_completes completes, fun px py => ⟨fun hit => ?hit, fun missed => ?missed⟩, fun unset => ?collision,
      fun kept => ?noCollision, fun k notFlag => ?others, rfl, rfl, fun _ => rfl⟩
    case hit =>
      rw [completed_drwVxVyN_fb, s.get_drawn x y height, if_pos ((s.mem_hits_iff x y n px py).mpr hit)]
    case missed =>
      rw [completed_drwVxVyN_fb, s.get_drawn x y height, if_neg (mt (s.mem_hits_iff x y n px py).mp missed)]
    case collision =>
      rw [completed_drwVxVyN_getV, if_pos rfl, (s.drawn_collision_iff x y height).mpr unset]
      rfl
    case noCollision =>
      have noPixel : ¬ (s.drawn x y n).2 = true := by
        rw [s.drawn_collision_iff x y height]
        rintro ⟨px, py, wasSet, unset⟩
        nomatch (kept px py wasSet).symm.trans unset
      rw [completed_drwVxVyN_getV, if_pos rfl, Bool.eq_false_iff.mpr noPixel]
      rfl
    case others => rw [completed_drwVxVyN_getV, if_neg notFlag]
  case traps =>
    have notInside : ¬ (n = 0 ∨ s.i.toNat + n ≤ 0x1000) := by omega
    exact exec_of_raises (if_neg notInside)

/-! ### The row modulus under wrap (R193, R197) -/

theorem placePixel_wrap_congr {py py' : Nat} (h : py % 32 = py' % 32) (px : Nat) :
    placePixel .wrap px py = placePixel .wrap px py' := by
  rw [placePixel, placePixel, show Fin.ofNat 32 py = Fin.ofNat 32 py' from Fin.ext h]

/-- Under wrap the first row matters modulo the height of the display. -/
theorem spriteHits_wrap_congr (x0 : Nat) (sprite : List Byte) {py py' : Nat} (h : py % 32 = py' % 32) :
    spriteHits .wrap x0 py sprite = spriteHits .wrap x0 py' sprite := by
  induction sprite generalizing py py' with
  | nil => rfl
  | cons b rest ih =>
    have next : (py + 1) % 32 = (py' + 1) % 32 := by omega
    have row : rowHits .wrap x0 py b = rowHits .wrap x0 py' b := by
      unfold rowHits
      simp only [placePixel_wrap_congr h]
    rw [spriteHits, spriteHits, row, ih next]

/-- The configuration with another row modulus. -/
def State.withRows (s : State) (rows : DrawYMod) : State := { s with cfg := { s.cfg with drawYMod := rows } }

theorem State.drawn_withRows {s : State} (wrap : s.cfg.drawEdge = .wrap) (x y : Reg) (n : Nat) :
    (s.withRows .rows64).drawn x y n = (s.withRows .rows32).drawn x y n := by
  have rows : (s.withRows .rows64).spriteRow y % 32 = (s.withRows .rows32).spriteRow y % 32 := by
    show (s.getV y).toNat % 64 % 32 = (s.getV y).toNat % 32 % 32
    omega
  have edge : ∀ rows, (s.withRows rows).cfg.drawEdge = .wrap := fun _ => wrap
  rw [State.drawn, State.drawn, drawRows_eq, drawRows_eq, edge, edge, spriteHits_wrap_congr _ _ rows]
  rfl

/-- Settles O51: both raise the same error, or draw the same. -/
theorem rowModulusInvisibleUnderWrap : Obligations.RowModulusInvisibleUnderWrap := by
  intro x y n s t u _ wrap first second
  have sameError : raised (.drwVxVyN x y n) (s.withRows .rows64) = raised (.drwVxVyN x y n) (s.withRows .rows32) := rfl
  rcases exec_next_cases first with ⟨e, raises, rfl⟩ | ⟨completes, rfl⟩
  · obtain rfl := Host.Outcome.next.inj ((exec_of_raises (sameError.trans raises)).symm.trans second)
    rfl
  · obtain rfl := Host.Outcome.next.inj ((exec_of_completes (sameError.trans completes)).symm.trans second)
    show completed (.drwVxVyN x y n) (s.withRows .rows64) =
      { completed (.drwVxVyN x y n) (s.withRows .rows32) with cfg := (s.withRows .rows64).cfg }
    rw [completed, completed, State.drawn_withRows wrap]
    rfl

/-! ### Drawing twice -/

/-- The first draw moves neither the sprite nor its place, unless a coordinate is VF. -/
theorem hits_completed_drwVxVyN {x y : Reg} (hx : x ≠ 15) (hy : y ≠ 15) (n : Nat) (s : State) :
    (completed (.drwVxVyN x y n) s).hits x y n = s.hits x y n := by
  have column : (completed (.drwVxVyN x y n) s).spriteColumn x = s.spriteColumn x := by
    rw [State.spriteColumn, completed_drwVxVyN_getV, if_neg hx, State.spriteColumn]
  have row : (completed (.drwVxVyN x y n) s).spriteRow y = s.spriteRow y := by
    rw [State.spriteRow, completed_drwVxVyN_getV, if_neg hy, completed_cfg, State.spriteRow]
  rw [State.hits, column, row]
  rfl

/-- Settles O52: each pixel is inverted twice or not at all. -/
theorem drawingTwiceRestoresDisplay : Obligations.DrawingTwiceRestoresDisplay := by
  intro x y n s height hx hy inside
  have completes : ∀ t : State, t.i = s.i → raised (.drwVxVyN x y n) t = none := fun t index =>
    (raised_drwVxVyN_eq_none x y n t).mpr (.inr (index ▸ inside))
  refine ⟨_, _, exec_of_completes (completes s rfl), exec_of_completes (completes _ rfl), Frame.ext_get fun px py => ?_⟩
  rw [completed_drwVxVyN_fb, State.get_drawn _ x y height, hits_completed_drwVxVyN hx hy, completed_drwVxVyN_fb,
    s.get_drawn x y height]
  split
  · rw [Bool.not_not]
  · rfl

end Sys2Proof.Machine
end

section
/-! PROOFS. Random byte, timers and key-wait (46_random_timers_keywait.md R200 to R205): the words, and a wait from its entry to
the press that ends it. -/

namespace Sys2Proof.Machine

/-! ### Random byte and timers -/

/-- The next draw takes the next supplied byte, or else the free one of this draw (log 9). -/
theorem State.nextRandom_eq {s : State} {r : Byte}
    (h : (s.randomIn = [] ∧ r = Config.randomByte s.draws) ∨ ∃ rest, s.randomIn = r :: rest) : s.nextRandom = r := by
  rcases h with ⟨none, rfl⟩ | ⟨rest, supplied⟩
  · rw [State.nextRandom, none, List.headD_nil]
  · rw [State.nextRandom, supplied, List.headD_cons]

/-- Settles O53: the draw consumes one byte, and its conjunction with nn is the one result. -/
theorem randomByteIsMasked : Obligations.RandomByteIsMasked := by
  refine ⟨fun x nn => decodeWord_ofNat rfl (formatXNN_eq 0xC#4 x nn), fun x nn r s h => ⟨_, exec_of_completes rfl,
    fun j => ?masked, fun k other => ?others, List.drop_one.symm, rfl, rfl, rfl, fun _ => rfl⟩⟩
  case masked =>
    rw [completed, State.advance_getV, State.getV_setV_self, State.nextRandom_eq h, BitVec.getLsbD_and]
  case others => rw [completed, State.advance_getV, State.getV_setV_ne _ _ other, State.afterDraw_getV]

/-- Settles O54: each of the three is one write, of Vx or of its timer. -/
theorem timersReadAndWritten : Obligations.TimersReadAndWritten := by
  refine ⟨fun x => ⟨decodeWord_ofNat rfl (formatXNN_eq_pattern 0xF#4 x 0x07#8),
    decodeWord_ofNat rfl (formatXNN_eq_pattern 0xF#4 x 0x15#8), decodeWord_ofNat rfl (formatXNN_eq_pattern 0xF#4 x 0x18#8)⟩,
    fun x s => ⟨?read, ?writeDt, ?writeSt⟩⟩
  case read => exact result_answers (exec_of_completes rfl)
  case writeDt => exact ⟨_, exec_of_completes rfl, rfl, rfl, rfl, fun _ => rfl⟩
  case writeSt => exact ⟨_, exec_of_completes rfl, rfl, decide_eq_true_iff, rfl, rfl, fun _ => rfl⟩

/-! ### Key-wait -/

/-- Settles O55: the entry writes KPREV and EXEC. -/
theorem keyWaitEntry : Obligations.KeyWaitEntry :=
  ⟨fun x => decodeWord_ofNat rfl (formatXNN_eq_pattern 0xF#4 x 0x0A#8),
    fun _ _ => ⟨_, exec_of_completes rfl, rfl, rfl, fun _ => rfl, rfl, fun _ => rfl⟩⟩

/-- The state after a poll that found key `k` newly pressed. -/
def State.takeKey (s : State) (x : Reg) (k : Key) : State :=
  ((s.setV x (BitVec.ofNat 8 k.val)).snapshotKeys.setExec .running).advance

theorem State.toNat_getV_takeKey (s : State) (x : Reg) (k : Key) : ((s.takeKey x k).getV x).toNat = k.val := by
  rw [State.takeKey, State.advance_getV, State.setExec_getV, State.snapshotKeys_getV, State.getV_setV_self,
    BitVec.toNat_ofNat]
  omega

theorem State.getV_takeKey_ne (s : State) {x m : Reg} (k : Key) (h : m ≠ x) : (s.takeKey x k).getV m = s.getV m :=
  State.getV_setV_ne s _ h

/-- The least newly pressed key is one key. -/
theorem leastNewKey_unique {s : State} {j k : Key} (hj : s.NewlyPressed j) (leastJ : ∀ i, i < j → ¬ s.NewlyPressed i)
    (hk : s.NewlyPressed k) (leastK : ∀ i, i < k → ¬ s.NewlyPressed i) : j = k := by
  rcases lt_trichotomy j k with below | same | above
  · exact absurd hj (leastK j below)
  · exact same
  · exact absurd hk (leastJ k above)

theorem State.pollKey_of_none {s : State} (x : Reg) (h : ∀ k, ¬ s.NewlyPressed k) : s.pollKey x = s.snapshotKeys := by
  rcases s.pollKey_cases x with ⟨-, polled⟩ | ⟨k, pressed, -⟩
  · exact polled
  · exact absurd pressed (h k)

theorem State.pollKey_of_least {s : State} (x : Reg) {k : Key} (hk : s.NewlyPressed k)
    (least : ∀ j, j < k → ¬ s.NewlyPressed j) : s.pollKey x = s.takeKey x k := by
  rcases s.pollKey_cases x with ⟨none, -⟩ | ⟨j, hj, leastJ, polled⟩
  · exact absurd hk (none k)
  · rw [leastNewKey_unique hk least hj leastJ]
    exact polled

/-- Settles O56: the poll refreshes the snapshot in both cases, and takes the least key where there is one. -/
theorem keyWaitPoll : Obligations.KeyWaitPoll := by
  intro x s waits
  refine ⟨_, step_of_waiting waits, fun k => ?snapshot, fun none => ?none, fun k hk least => ?least, fun a => ?memory⟩
  case snapshot => rcases s.pollKey_cases x with ⟨-, polled⟩ | ⟨j, -, -, polled⟩ <;> rw [polled] <;> rfl
  case none => rw [State.pollKey_of_none x none]; rfl
  case least =>
    rw [State.pollKey_of_least x hk least]
    exact ⟨s.toNat_getV_takeKey x k, fun m other => s.getV_takeKey_ne k other, rfl, rfl, rfl⟩
  case memory => rcases s.pollKey_cases x with ⟨-, polled⟩ | ⟨j, -, -, polled⟩ <;> rw [polled] <;> rfl

/-! ### A wait until a press -/

theorem afterOps_append (s : State) (first second : List Op) :
    afterOps s (first ++ second) = afterOps (afterOps s first) second :=
  List.foldl_append

theorem State.not_newlyPressed_of_up {s : State} {k : Key} (up : s.keyDown k = false) : ¬ s.NewlyPressed k := by
  rintro ⟨down, -⟩
  nomatch up.symm.trans down

/-- With no key down a poll refreshes the snapshot, and the polls after it find nothing more to do. -/
theorem afterOps_polls {s : State} {x : Reg} {n : Nat} (waits : s.exec = .waitingForKey x)
    (up : ∀ j, s.keyDown j = false) (h : 1 ≤ n) : afterOps s (List.replicate n .step) = s.snapshotKeys := by
  have poll : ∀ t : State, t.exec = .waitingForKey x → (∀ j, t.keyDown j = false) → afterOp t .step = t.snapshotKeys := by
    intro t waits up
    rw [afterOp_of_next (op := .step) (step_of_waiting waits),
      State.pollKey_of_none x fun k => State.not_newlyPressed_of_up (up k)]
  obtain ⟨n, rfl⟩ := Nat.exists_eq_succ_of_ne_zero (Nat.one_le_iff_ne_zero.mp h)
  rw [List.replicate_succ, afterOps_cons, poll s waits up]
  exact afterOps_replicate_of_fixed (poll s.snapshotKeys waits up) n

theorem State.keyDown_setKeyFlag (s : State) (k j : Key) (pressed : Bool) :
    (s.setKeyFlag k pressed).keyDown j = if j = k then pressed else s.keyDown j := by
  unfold State.setKeyFlag State.keyDown
  by_cases same : j = k
  · subst same
    simp
  · have apart : k.val ≠ j.val := fun e => same (Fin.ext e.symm)
    simp [same, apart]

theorem perform_setKey_val (s : State) (k : Key) (pressed : Bool) :
    perform (.setKey k.val pressed) s = .next (s.setKeyFlag k pressed) :=
  perform_setKey_of_lt s pressed k.isLt

/-- The key pressed after a snapshot without keys is the one that is newly pressed. -/
theorem State.newlyPressed_setKeyFlag_snapshot {s : State} (up : ∀ j, s.keyDown j = false) (k j : Key) :
    (s.snapshotKeys.setKeyFlag k true).NewlyPressed j ↔ j = k := by
  have wasUp : (s.snapshotKeys.setKeyFlag k true).keyWasDown j = false := up j
  have isUp : s.snapshotKeys.keyDown j = false := up j
  unfold State.NewlyPressed
  rw [State.keyDown_setKeyFlag, isUp, wasUp]
  simp

/-- Settles O57: the polls end in the snapshot, and after the press the poll takes the pressed key. -/
theorem keyWaitEndsAtPress : Obligations.KeyWaitEndsAtPress := by
  intro x k n s waits up h
  have polls := afterOps_polls waits up h
  have pressed : ∀ j, (s.snapshotKeys.setKeyFlag k true).NewlyPressed j ↔ j = k := State.newlyPressed_setKeyFlag_snapshot up k
  have ends : afterOps s (List.replicate n .step ++ [.setKey k.val true, .step]) =
      (s.snapshotKeys.setKeyFlag k true).takeKey x k := by
    have waiting : (s.snapshotKeys.setKeyFlag k true).exec = .waitingForKey x := waits
    rw [afterOps_append, polls, afterOps_cons, afterOps_cons, afterOps_nil, afterOp_of_next (perform_setKey_val _ k true),
      afterOp_of_next (op := .step) (step_of_waiting waiting)]
    exact State.pollKey_of_least x ((pressed k).mpr rfl) fun j below new => below.ne ((pressed j).mp new)
  refine ⟨by rw [polls]; exact waits, by rw [polls]; rfl, _, rfl, ?_⟩
  rw [ends]
  exact ⟨State.toNat_getV_takeKey _ x k, rfl, rfl⟩

end Sys2Proof.Machine
end

section
/-! PROOFS. The driver's operations (40_step_cycle.md R118 to R121) and the rest of the reset state (10_state.md section 10). -/

namespace Sys2Proof.Machine

/-! ### Ticks (R118) -/

theorem toNat_tickDown (t : Byte) : (tickDown t).toNat = t.toNat - 1 := by
  unfold tickDown
  split
  · next positive =>
    have := t.isLt
    rw [BitVec.toNat_sub, BitVec.toNat_ofNat]
    omega
  · omega

/-- A number that a tick lowers by one, floored at 0, and that every other operation of the schedule keeps is lower at the end by
the number of ticks, as far as it goes. -/
theorem afterOps_lowers {r : State → Nat} (tick : ∀ s : State, r s.tickTimers = r s - 1) (ops : List Op) (s : State)
    (keep : ∀ before op after, ops = before ++ op :: after → op ≠ .tickTimers →
      r (afterOp (afterOps s before) op) = r (afterOps s before)) :
    r (afterOps s ops) = r s - min (ops.count .tickTimers) (r s) := by
  induction ops generalizing s with
  | nil => rw [List.count_nil, Nat.zero_min]; rfl
  | cons op ops ih =>
    have rest := ih (afterOp s op) fun before op' after split =>
      keep (op :: before) op' after (by rw [split, List.cons_append])
    rw [afterOps_cons, rest]
    by_cases isTick : op = .tickTimers
    · subst isTick
      have lowered : r (afterOp s .tickTimers) = r s - 1 := tick s
      rw [lowered, List.count_cons_self]
      omega
    · have kept : r (afterOp s op) = r s := keep [] op ops rfl isTick
      rw [kept, List.count_cons_of_ne isTick]

/-- Beside reset, a tick and a step that executes LD DT or LD ST, no operation writes a timer. -/
theorem afterOp_timers {s : State} {op : Op} (notReset : ∀ cfg, op ≠ .reset cfg) (notTick : op ≠ .tickTimers)
    (quiet : op = .step → s.exec = .running →
      ∀ x, s.fetchDecode ≠ .ok (.ldDtVx x) ∧ s.fetchDecode ≠ .ok (.ldStVx x)) :
    (afterOp s op).dt = s.dt ∧ (afterOp s op).st = s.st := by
  cases op with
  | reset cfg => exact absurd rfl (notReset cfg)
  | tickTimers => exact absurd rfl notTick
  | step =>
    obtain ⟨t, answers⟩ := step_answers_next s
    rw [afterOp_of_next (op := .step) answers]
    cases state : s.exec with
    | running =>
      obtain ⟨-, -, dt, st, -⟩ := stepLeavesKeysConfigTimersRandom s t answers
      exact ⟨dt fun x => (quiet rfl state x).1, st fun x => (quiet rfl state x).2⟩
    | waitingForKey x =>
      obtain rfl : s.pollKey x = t := Host.Outcome.next.inj ((step_of_waiting state).symm.trans answers)
      obtain ⟨-, -, dt, st, -⟩ := LeavesInputs.pollKey (.ok .cls) s x
      exact ⟨dt nofun, st nofun⟩
    | halted e =>
      obtain rfl : s = t := Host.Outcome.next.inj ((step_of_halted state).symm.trans answers)
      exact ⟨rfl, rfl⟩
  | load bytes => rcases afterOp_load_cases s bytes with same | ⟨-, same⟩ <;> rw [same] <;> exact ⟨rfl, rfl⟩
  | setKey index pressed =>
    rcases afterOp_setKey_cases s index pressed with same | ⟨k, same⟩ <;> rw [same] <;> exact ⟨rfl, rfl⟩
  | supplyRandom b => exact ⟨rfl, rfl⟩

/-- Settles O58: each timer is a number as in `afterOps_lowers`. -/
theorem ticksLowerTimersToZero : Obligations.TicksLowerTimersToZero := by
  refine ⟨fun s => ⟨_, rfl, toNat_tickDown s.dt, toNat_tickDown s.st, rfl⟩, fun ops s notReset quiet => ?_⟩
  have timers : ∀ before op after, ops = before ++ op :: after → op ≠ .tickTimers →
      (afterOp (afterOps s before) op).dt = (afterOps s before).dt ∧
      (afterOp (afterOps s before) op).st = (afterOps s before).st := by
    intro before op after split notTick
    refine afterOp_timers (fun cfg isReset => notReset cfg ?_) notTick fun isStep => quiet before after (isStep ▸ split)
    rw [split, isReset]
    exact List.mem_append_right before List.mem_cons_self
  exact ⟨afterOps_lowers (r := fun s => s.dt.toNat) (fun s => toNat_tickDown s.dt) ops s
      fun before op after split notTick => congrArg BitVec.toNat (timers before op after split notTick).1,
    afterOps_lowers (r := fun s => s.st.toNat) (fun s => toNat_tickDown s.st) ops s
      fun before op after split notTick => congrArg BitVec.toNat (timers before op after split notTick).2⟩

/-! ### set_key and load (R120, R121) -/

/-- Settles O59: an index up to 15 is a key, and its flag alone is written. -/
theorem setKeyWritesOneFlag : Obligations.SetKeyWritesOneFlag := by
  refine fun index pressed s => ⟨fun k isIndex => ?flag, fun noKey => ?refused⟩
  case flag =>
    subst isIndex
    refine ⟨_, perform_setKey_val s k pressed, ?_, fun j other => ?_, rfl⟩
    · rw [State.keyDown_setKeyFlag, if_pos rfl]
    · rw [State.keyDown_setKeyFlag, if_neg other]
  case refused =>
    have fault := perform_setKey_of_ge s pressed noKey
    exact ⟨fault, afterOp_of_fault fault⟩

/-- Settles O60: the load is a block write at 0x200. -/
theorem loadWritesProgramOnly : Obligations.LoadWritesProgramOnly := by
  refine fun bytes s => ⟨fun fits => ?loads, fun tooLarge => ?refused⟩
  case loads =>
    refine ⟨_, perform_load_of_le s fits, fun k inside => ?_, fun a outside => Memory.read_writeList_of_outside outside, rfl⟩
    exact (List.getElem?_eq_getElem inside).trans (congrArg some (Memory.read_writeList_of_lt inside).symm)
  case refused =>
    have fault := perform_load_of_gt s tooLarge
    exact ⟨fault, afterOp_of_fault fault⟩

/-! ### The reset state -/

/-- Row r of the glyph of digit d of the configured font (R41). -/
theorem Memory.read_reset_glyph (cfg : Configuration) (d : Fin 16) (r : Fin 5) :
    Memory.read (State.resetWith cfg).mem (0x050 + 5 * d.val + r.val) = (cfg.font[d])[r] := by
  rw [Memory.read_reset, if_pos (by omega), Nat.add_assoc, Nat.add_sub_cancel_left, getD_fontBytes]

theorem Memory.read_reset_of_outside (cfg : Configuration) {a : Nat} (h : a < 0x050 ∨ 0x09F < a) :
    Memory.read (State.resetWith cfg).mem a = 0#8 := by
  rw [Memory.read_reset, if_neg (by omega), unlistedByte]

theorem State.getV_resetWith (cfg : Configuration) (k : Reg) : (State.resetWith cfg).getV k = 0#8 :=
  Vector.getElem_replicate k.isLt

theorem State.keyDown_resetWith (cfg : Configuration) (k : Key) : (State.resetWith cfg).keyDown k = false :=
  Vector.getElem_replicate k.isLt

theorem State.keyWasDown_resetWith (cfg : Configuration) (k : Key) : (State.resetWith cfg).keyWasDown k = false :=
  Vector.getElem_replicate k.isLt

/-- Settles O2: the vectors are constant, the display is the blank one, and memory is the font and zeros. -/
theorem resetClearsEverythingElse : Obligations.ResetClearsEverythingElse := fun cfg =>
  ⟨rfl, State.getV_resetWith cfg, rfl, rfl, rfl, rfl, rfl, Frame.get_blank, State.keyDown_resetWith cfg,
    State.keyWasDown_resetWith cfg, Memory.read_reset_glyph cfg, fun _ => Memory.read_reset_of_outside cfg⟩

end Sys2Proof.Machine
end
